-- ==== Sys2Proof/Word.lean ====
section
/-! DEFINITION. The widths of the machine's values (00_scope R3, R5): every value is an unsigned
integer of a stated width. -/

namespace Sys2Proof

/-- An 8-bit value: a general register, a memory byte, a timer (R10, R15, R17). -/
abbrev Byte := BitVec 8

/-- A 16-bit value: an opcode, the program counter, the index register, a stack entry
(R12, R13, R14, R60). -/
abbrev Word := BitVec 16

/-- The number of a general register, 0 to 15 (R10), and equally a keypad code (R9, R18). -/
abbrev Reg := Fin 16

/-- The sixteen key latches; `true` is down (R18). -/
abbrev Keypad := Vector Bool 16

/-- The display, 32 rows of 64 one-bit cells, row-major; `true` is on (R16). -/
abbrev Display := Vector (Vector Bool 64) 32

end Sys2Proof
end

