-- ==== Sys2Proof/Syntax.lean ====
section
/-! DEFINITION. The instruction set: one constructor per row of spec/opcode_table.json, in its
order (30_encoding R64), with the fields its format names (R61, R62). -/

namespace Sys2Proof

/-- The 34 instructions (R64). `x` and `y` number general registers, `nnn`, `nn` and `n` are the
unsigned fields NNN, NN and N (R63). -/
inductive Instr where
  /-- 00E0, clear screen (R131). -/
  | cls
  /-- 00EE, return (R91). -/
  | ret
  /-- 1NNN, jump (R92). -/
  | jp (nnn : BitVec 12)
  /-- 2NNN, call (R93). -/
  | call (nnn : BitVec 12)
  /-- 3XNN, skip if equal to constant (R94). -/
  | seImm (x : Reg) (nn : Byte)
  /-- 4XNN, skip if not equal to constant (R95). -/
  | sneImm (x : Reg) (nn : Byte)
  /-- 5XY0, skip if registers equal (R96). -/
  | seReg (x y : Reg)
  /-- 6XNN, load constant (R101). -/
  | ldImm (x : Reg) (nn : Byte)
  /-- 7XNN, add constant (R102). -/
  | addImm (x : Reg) (nn : Byte)
  /-- 8XY0, copy register (R103). -/
  | ldReg (x y : Reg)
  /-- 8XY1, bitwise OR (R104). -/
  | orReg (x y : Reg)
  /-- 8XY2, bitwise AND (R105). -/
  | andReg (x y : Reg)
  /-- 8XY3, bitwise exclusive OR (R106). -/
  | xorReg (x y : Reg)
  /-- 8XY4, add with carry out (R107). -/
  | addReg (x y : Reg)
  /-- 8XY5, subtract (R108). -/
  | sub (x y : Reg)
  /-- 8XY6, shift right by one (R109); `y` is part of the word and ignored (R69). -/
  | shr (x y : Reg)
  /-- 8XY7, reverse subtract (R110). -/
  | subn (x y : Reg)
  /-- 8XYE, shift left by one (R111); `y` is part of the word and ignored (R69). -/
  | shl (x y : Reg)
  /-- 9XY0, skip if registers differ (R97). -/
  | sneReg (x y : Reg)
  /-- ANNN, load index (R121). -/
  | ldI (nnn : BitVec 12)
  /-- BNNN, jump with offset V0 (R98). -/
  | jpV0 (nnn : BitVec 12)
  /-- CXNN, random AND constant (R112). -/
  | rnd (x : Reg) (nn : Byte)
  /-- DXYN, draw sprite (R132). -/
  | drw (x y : Reg) (n : BitVec 4)
  /-- EX9E, skip if key down (R141). -/
  | skp (x : Reg)
  /-- EXA1, skip if key up (R142). -/
  | sknp (x : Reg)
  /-- FX0A, wait for a key (R143). -/
  | ldVxK (x : Reg)
  /-- FX07, read delay timer (R144). -/
  | ldVxDt (x : Reg)
  /-- FX15, set delay timer (R145). -/
  | ldDtVx (x : Reg)
  /-- FX18, set sound timer (R146). -/
  | ldStVx (x : Reg)
  /-- FX1E, add register to index (R122). -/
  | addI (x : Reg)
  /-- FX29, point at font glyph (R123). -/
  | ldF (x : Reg)
  /-- FX33, store decimal digits (R124). -/
  | ldB (x : Reg)
  /-- FX55, store registers V[0] to V[X] (R125). -/
  | ldMemVx (x : Reg)
  /-- FX65, load registers V[0] to V[X] (R126). -/
  | ldVxMem (x : Reg)
deriving DecidableEq, Repr

/-- The structured fields of an opcode, all of them extracted from every opcode; the contents of
the instruction register IR (R20, R61, R82). -/
structure Fields where
  opcode : Word
  nnn : BitVec 12
  nn : BitVec 8
  n : BitVec 4
  x : BitVec 4
  y : BitVec 4
deriving DecidableEq, Repr

/-- Why bytes are no instruction of the table. -/
inductive DecodeReject where
  /-- A word that no row of R64 selects (R66). The step runs it as a no-op (R84): no fault. -/
  | unknownOpcode (op : Word)
  /-- Fewer than the two bytes of a word were given (R60). The step never decodes such bytes. -/
  | tooShort (bytes : Nat)
deriving DecidableEq, Repr

/-- One row of the opcode map: a word is the row's instruction exactly when
`word AND mask = pattern` (R64). -/
structure OpcodeRow where
  mnemonic : String
  pattern : Word
  mask : Word
deriving DecidableEq, Repr

/-- What the host may deliver at a yield point (60_exceptions R171). A code is a 4-bit value: no
other can be delivered (R172, D27). -/
inductive HostEvent where
  /-- `keyDown(code)` (R172). -/
  | keyDown (code : Reg)
  /-- `keyUp(code)` (R172). -/
  | keyUp (code : Reg)
  /-- `togglePause()` (R173). -/
  | togglePause
  /-- `requestQuit()` (R174). -/
  | requestQuit
deriving DecidableEq, Repr

end Sys2Proof
end

