-- ==== Sys2Proof/Decode.lean ====
section
/-! DEFINITION. The decoder, total on every word and every list of bytes, and the encoder beside
it (30_encoding R60 to R69). -/

namespace Sys2Proof

/-- The word of two bytes, high byte first (20_memory R42). -/
def joinBytes (hi lo : Byte) : Word := hi ++ lo

/-- The byte of a word that stands at the lower address (R42). -/
def highByte (w : Word) : Byte := w.extractLsb' 8 8

/-- The byte of a word that stands at the higher address (R42). -/
def lowByte (w : Word) : Byte := w.extractLsb' 0 8

/-- The five fields of an opcode, and the opcode itself (R61, R82). -/
def Fields.ofWord (op : Word) : Fields where
  opcode := op
  nnn := op.extractLsb' 0 12
  nn := op.extractLsb' 0 8
  n := op.extractLsb' 0 4
  x := op.extractLsb' 8 4
  y := op.extractLsb' 4 4

/-- The top nibble, which the dispatcher looks at first (R61, R65). -/
def familyOf (op : Word) : Nat := (op.extractLsb' 12 4).toNat

/-- The instruction a word stands for, or the word's rejection by name. The top nibble first, then
the sub-discriminant of R65: the whole word in family 0 (D13), N in families 5, 8 and 9 (D12),
NN in families E and F. -/
def decodeWord (op : Word) : Except DecodeReject Instr :=
  let nnn : BitVec 12 := op.extractLsb' 0 12
  let nn : Byte := op.extractLsb' 0 8
  let n : BitVec 4 := op.extractLsb' 0 4
  let x : Reg := (op.extractLsb' 8 4).toFin
  let y : Reg := (op.extractLsb' 4 4).toFin
  match familyOf op with
  | 0x0 =>
    match op.toNat with
    | 0x00E0 => .ok .cls
    | 0x00EE => .ok .ret
    | _ => .error (.unknownOpcode op)
  | 0x1 => .ok (.jp nnn)
  | 0x2 => .ok (.call nnn)
  | 0x3 => .ok (.seImm x nn)
  | 0x4 => .ok (.sneImm x nn)
  | 0x5 =>
    match n.toNat with
    | 0x0 => .ok (.seReg x y)
    | _ => .error (.unknownOpcode op)
  | 0x6 => .ok (.ldImm x nn)
  | 0x7 => .ok (.addImm x nn)
  | 0x8 =>
    match n.toNat with
    | 0x0 => .ok (.ldReg x y)
    | 0x1 => .ok (.orReg x y)
    | 0x2 => .ok (.andReg x y)
    | 0x3 => .ok (.xorReg x y)
    | 0x4 => .ok (.addReg x y)
    | 0x5 => .ok (.sub x y)
    | 0x6 => .ok (.shr x y)
    | 0x7 => .ok (.subn x y)
    | 0xE => .ok (.shl x y)
    | _ => .error (.unknownOpcode op)
  | 0x9 =>
    match n.toNat with
    | 0x0 => .ok (.sneReg x y)
    | _ => .error (.unknownOpcode op)
  | 0xA => .ok (.ldI nnn)
  | 0xB => .ok (.jpV0 nnn)
  | 0xC => .ok (.rnd x nn)
  | 0xD => .ok (.drw x y n)
  | 0xE =>
    match nn.toNat with
    | 0x9E => .ok (.skp x)
    | 0xA1 => .ok (.sknp x)
    | _ => .error (.unknownOpcode op)
  | 0xF =>
    match nn.toNat with
    | 0x07 => .ok (.ldVxDt x)
    | 0x0A => .ok (.ldVxK x)
    | 0x15 => .ok (.ldDtVx x)
    | 0x18 => .ok (.ldStVx x)
    | 0x1E => .ok (.addI x)
    | 0x29 => .ok (.ldF x)
    | 0x33 => .ok (.ldB x)
    | 0x55 => .ok (.ldMemVx x)
    | 0x65 => .ok (.ldVxMem x)
    | _ => .error (.unknownOpcode op)
  | _ => .error (.unknownOpcode op)

/-- The instruction at the head of a list of bytes and the bytes after it (R60: two bytes, high
byte first). -/
def decodeBytes : List Byte → Except DecodeReject (Instr × List Byte)
  | hi :: lo :: rest =>
    match decodeWord (joinBytes hi lo) with
    | .ok i => .ok (i, rest)
    | .error e => .error e
  | bs => .error (.tooShort bs.length)

/-- The bits of a register number in a word (R61). -/
def regBits (r : Reg) : BitVec 4 := BitVec.ofFin r

/-- Format A: family, NNN (R62). -/
def formatA (family : BitVec 4) (nnn : BitVec 12) : Word := family ++ nnn

/-- Format I: family, X, NN (R62). -/
def formatI (family : BitVec 4) (x : Reg) (nn : Byte) : Word := family ++ (regBits x ++ nn)

/-- Formats R and D: family, X, Y, function or row count (R62). -/
def formatR (family : BitVec 4) (x y : Reg) (n : BitVec 4) : Word :=
  family ++ (regBits x ++ (regBits y ++ n))

/-- The word of an instruction (R62, R64). -/
def encode : Instr → Word
  | .cls => 0x00E0
  | .ret => 0x00EE
  | .jp nnn => formatA 0x1 nnn
  | .call nnn => formatA 0x2 nnn
  | .seImm x nn => formatI 0x3 x nn
  | .sneImm x nn => formatI 0x4 x nn
  | .seReg x y => formatR 0x5 x y 0x0
  | .ldImm x nn => formatI 0x6 x nn
  | .addImm x nn => formatI 0x7 x nn
  | .ldReg x y => formatR 0x8 x y 0x0
  | .orReg x y => formatR 0x8 x y 0x1
  | .andReg x y => formatR 0x8 x y 0x2
  | .xorReg x y => formatR 0x8 x y 0x3
  | .addReg x y => formatR 0x8 x y 0x4
  | .sub x y => formatR 0x8 x y 0x5
  | .shr x y => formatR 0x8 x y 0x6
  | .subn x y => formatR 0x8 x y 0x7
  | .shl x y => formatR 0x8 x y 0xE
  | .sneReg x y => formatR 0x9 x y 0x0
  | .ldI nnn => formatA 0xA nnn
  | .jpV0 nnn => formatA 0xB nnn
  | .rnd x nn => formatI 0xC x nn
  | .drw x y n => formatR 0xD x y n
  | .skp x => formatI 0xE x 0x9E
  | .sknp x => formatI 0xE x 0xA1
  | .ldVxK x => formatI 0xF x 0x0A
  | .ldVxDt x => formatI 0xF x 0x07
  | .ldDtVx x => formatI 0xF x 0x15
  | .ldStVx x => formatI 0xF x 0x18
  | .addI x => formatI 0xF x 0x1E
  | .ldF x => formatI 0xF x 0x29
  | .ldB x => formatI 0xF x 0x33
  | .ldMemVx x => formatI 0xF x 0x55
  | .ldVxMem x => formatI 0xF x 0x65

/-- The two bytes of an instruction in memory order (R42, R60). -/
def encodeBytes (i : Instr) : List Byte := [highByte (encode i), lowByte (encode i)]

/-- Rows 1 to 19 of the opcode map (R64), apart from the decoder so that each can be held against
the other. -/
def opcodeRows0to9 : List OpcodeRow :=
  [⟨"CLS", 0x00E0, 0xFFFF⟩, ⟨"RET", 0x00EE, 0xFFFF⟩, ⟨"JP", 0x1000, 0xF000⟩,
   ⟨"CALL", 0x2000, 0xF000⟩, ⟨"SE_IMM", 0x3000, 0xF000⟩, ⟨"SNE_IMM", 0x4000, 0xF000⟩,
   ⟨"SE_REG", 0x5000, 0xF00F⟩, ⟨"LD_IMM", 0x6000, 0xF000⟩, ⟨"ADD_IMM", 0x7000, 0xF000⟩,
   ⟨"LD_REG", 0x8000, 0xF00F⟩, ⟨"OR", 0x8001, 0xF00F⟩, ⟨"AND", 0x8002, 0xF00F⟩,
   ⟨"XOR", 0x8003, 0xF00F⟩, ⟨"ADD_REG", 0x8004, 0xF00F⟩, ⟨"SUB", 0x8005, 0xF00F⟩,
   ⟨"SHR", 0x8006, 0xF00F⟩, ⟨"SUBN", 0x8007, 0xF00F⟩, ⟨"SHL", 0x800E, 0xF00F⟩,
   ⟨"SNE_REG", 0x9000, 0xF00F⟩]

/-- Rows 20 to 34 of the opcode map (R64). -/
def opcodeRowsAtoF : List OpcodeRow :=
  [⟨"LD_I", 0xA000, 0xF000⟩, ⟨"JP_V0", 0xB000, 0xF000⟩, ⟨"RND", 0xC000, 0xF000⟩,
   ⟨"DRW", 0xD000, 0xF000⟩, ⟨"SKP", 0xE09E, 0xF0FF⟩, ⟨"SKNP", 0xE0A1, 0xF0FF⟩,
   ⟨"LD_VX_K", 0xF00A, 0xF0FF⟩, ⟨"LD_VX_DT", 0xF007, 0xF0FF⟩, ⟨"LD_DT_VX", 0xF015, 0xF0FF⟩,
   ⟨"LD_ST_VX", 0xF018, 0xF0FF⟩, ⟨"ADD_I", 0xF01E, 0xF0FF⟩, ⟨"LD_F", 0xF029, 0xF0FF⟩,
   ⟨"LD_B", 0xF033, 0xF0FF⟩, ⟨"LD_MEM_VX", 0xF055, 0xF0FF⟩, ⟨"LD_VX_MEM", 0xF065, 0xF0FF⟩]

/-- The opcode map (R64). -/
def opcodeTable : List OpcodeRow := opcodeRows0to9 ++ opcodeRowsAtoF

/-- A row selects a word (R64). -/
def OpcodeRow.selects (r : OpcodeRow) (op : Word) : Bool := op &&& r.mask == r.pattern

/-- The place in the opcode map of an instruction's row, counted from 0 (R64). -/
def rowIndex : Instr → Nat
  | .cls => 0
  | .ret => 1
  | .jp _ => 2
  | .call _ => 3
  | .seImm _ _ => 4
  | .sneImm _ _ => 5
  | .seReg _ _ => 6
  | .ldImm _ _ => 7
  | .addImm _ _ => 8
  | .ldReg _ _ => 9
  | .orReg _ _ => 10
  | .andReg _ _ => 11
  | .xorReg _ _ => 12
  | .addReg _ _ => 13
  | .sub _ _ => 14
  | .shr _ _ => 15
  | .subn _ _ => 16
  | .shl _ _ => 17
  | .sneReg _ _ => 18
  | .ldI _ => 19
  | .jpV0 _ => 20
  | .rnd _ _ => 21
  | .drw _ _ _ => 22
  | .skp _ => 23
  | .sknp _ => 24
  | .ldVxK _ => 25
  | .ldVxDt _ => 26
  | .ldDtVx _ => 27
  | .ldStVx _ => 28
  | .addI _ => 29
  | .ldF _ => 30
  | .ldB _ => 31
  | .ldMemVx _ => 32
  | .ldVxMem _ => 33

/-- The instruction the decoder reads from an opcode-table word of `nbits` bits, laid out in memory
as the hardware stores it, high byte first (R42). -/
def decodeTableWord (nbits w : Nat) : Option Instr :=
  let op : Word := BitVec.ofNat 16 (w % 2 ^ nbits)
  match decodeBytes [highByte op, lowByte op] with
  | .ok (i, _) => some i
  | .error _ => none

end Sys2Proof
end

