-- ==== Sys2Proof/Config.lean ====
section
/-! DEFINITION. What is fixed for a whole run, not state (10_state R23): the parameters of 00_scope R4
with their defaults, and the free value behind CXNN. -/

namespace Sys2Proof

/-- The parameters of 00_scope R4 other than the ROM image (an argument of `State.load`).
A state carries them, because `step` has no other argument; no step changes them (log 4). -/
structure Config where
  /-- `RATE`, instructions per second; any natural number (R4, D19). -/
  rate : Nat
  /-- `FONT`, the 80 bytes that reset copies to 0x000 to 0x04F (R46, D15). -/
  font : Vector Byte 80
  /-- `KEYWAIT_PICK` (R143, D9), as the table of the keypads at which it differs from its
  default, the lowest key down. Every function from keypads to a key that is down has such
  a table; `Config.pick` ignores an entry whose key is up. -/
  keyPick : List (Keypad × Reg)
deriving DecidableEq, Repr

/-- `IPT = floor(RATE / 60)`, the instruction slots of a tick (R4, R166). -/
def Config.ipt (c : Config) : Nat := c.rate / 60

/-- Glyphs 0 to 3 of the default font (R46). PRESUMED: the spec marks the bytes as general knowledge
(log 5). -/
def Config.fontGlyphs0 : List Byte :=
  [0xF0, 0x90, 0x90, 0x90, 0xF0,  0x20, 0x60, 0x20, 0x20, 0x70,
   0xF0, 0x10, 0xF0, 0x80, 0xF0,  0xF0, 0x10, 0xF0, 0x10, 0xF0]

/-- Glyphs 4 to 7 of the default font (R46). -/
def Config.fontGlyphs4 : List Byte :=
  [0x90, 0x90, 0xF0, 0x10, 0x10,  0xF0, 0x80, 0xF0, 0x10, 0xF0,
   0xF0, 0x80, 0xF0, 0x90, 0xF0,  0xF0, 0x10, 0x20, 0x40, 0x40]

/-- Glyphs 8 to B of the default font (R46). -/
def Config.fontGlyphs8 : List Byte :=
  [0xF0, 0x90, 0xF0, 0x90, 0xF0,  0xF0, 0x90, 0xF0, 0x10, 0xF0,
   0xF0, 0x90, 0xF0, 0x90, 0x90,  0xE0, 0x90, 0xE0, 0x90, 0xE0]

/-- Glyphs C to F of the default font (R46). -/
def Config.fontGlyphsC : List Byte :=
  [0xF0, 0x80, 0x80, 0x80, 0xF0,  0xE0, 0x90, 0x90, 0x90, 0xE0,
   0xF0, 0x80, 0xF0, 0x80, 0xF0,  0xF0, 0x80, 0xF0, 0x80, 0x80]

/-- The default font, glyph of digit d at 5 * d (R46). -/
def Config.fontBytes : List Byte :=
  Config.fontGlyphs0 ++ Config.fontGlyphs4 ++ Config.fontGlyphs8 ++ Config.fontGlyphsC

/-- The defaults of R4: RATE 500, the font table of R46, the lowest key down. -/
def Config.default : Config where
  rate := 500
  font := Vector.ofFn fun k => Config.fontBytes.getD k.val 0
  keyPick := []

/-- FREE VALUE. The byte `RND` of the n-th execution of CXNN (R112, R177, D10): any value at each
draw, with no relation between draws. It has no body, so nothing can be proved of it (log 3). -/
opaque Config.randomByte : Nat → Byte

end Sys2Proof
end

