-- ==== Sys2Proof/Machine/State.lean ====
section
/-! DEFINITION. The state of the machine as plain data (10_state R10 to R24), the faults (60_exceptions
R150), the refusals, and the state after reset (10_state R24). -/

namespace Sys2Proof.Machine

/-- The six faults of R150. Each is raised by the step whose condition its docstring gives: the
step answers the state it began in with `fault` set (R151), and every later step answers the
outcome `fault` with this reason until reset. All six are SAFE against the source program: there
the case is undefined and may go on (92_eei_decisions D3 to D8, "toward unprovable"). -/
inductive Fault where
  /-- Code 1. Raised by the fetch of any step with pc > 0xFFE (R152). Safe. -/
  | fetchOutOfRange
  /-- Code 2. Raised by 2NNN with 16 entries held (R153). Safe. -/
  | stackOverflow
  /-- Code 3. Raised by 00EE with no entry held (R154). Safe. -/
  | stackUnderflow
  /-- Code 4. Raised by DXYN when the address of a drawn row exceeds 0xFFF (R155). Safe. -/
  | spriteReadOutOfRange
  /-- Code 5. Raised by FX33 with I + 2 > 0xFFF (R156). Safe. -/
  | bcdWriteOutOfRange
  /-- Code 6. Raised by EX9E and EXA1 with V[X] > 15 (R157). Safe. -/
  | keyIndexOutOfRange
deriving DecidableEq, Repr

/-- What the model gives no meaning. -/
inductive Refusal where
  /-- An instruction of the table without a meaning. No arm of `exec` answers it. Safe. -/
  | notModelled (mnemonic : String)
  /-- `reset(ROM)` with a ROM longer than 3584 bytes yields no state (70_reset R193, D21).
  Answered by `State.load` only, never by a step. Safe. -/
  | romTooLarge
deriving DecidableEq, Repr

/-- The run state (R19, R168). -/
inductive RunState where
  | running
  | paused
  | quit
deriving DecidableEq, Repr

/-- The contents of `mem` (R15): pairs of address and byte, addresses strictly rising, no pair
equal to what an unlisted address reads as (`Memory.wf`, Ops). -/
abbrev Memory := List Host.Cell

/-- The whole state of the machine (10_state section 1). The last three fields are the model's own:
parameters and inputs of the run, which R23 says are not state. -/
structure State where
  /-- `V[0]` to `V[15]`; `V[15]` is VF (R10, R11). -/
  v : Vector Byte 16
  /-- The index register `I` (R12). -/
  i : Word
  /-- The program counter (R13). -/
  pc : Word
  /-- The sixteen slots of the call stack; `stack[0]` is the oldest entry (R14). -/
  stack : Vector Word 16
  /-- The stack pointer: how many entries are held, 0 to 16 (R14). -/
  sp : Fin 17
  /-- The 4096 bytes of memory (R15). -/
  mem : Memory
  /-- The display, `display[y][x]` (R16). -/
  display : Display
  /-- The delay timer (R17). -/
  dt : Byte
  /-- The sound timer (R17). -/
  st : Byte
  /-- The key latches; `true` is down (R18). -/
  keypad : Keypad
  /-- The run state (R19). -/
  runState : RunState
  /-- The instruction register IR (R20). -/
  ir : Fields
  /-- `FAULT`: the fault that halted the core, if any (R21). -/
  fault : Option Fault
  /-- The position in the tick: how many of its slots have been used, 0 to `IPT` (R22 b). -/
  slot : Nat
  /-- The parameters of the run (R4, R23; log 4). No step changes them. -/
  config : Config
  /-- The host's events still to come, one list for each coming yield point; none where the list
  has ended (R23, R171; log 2). -/
  inputs : List (List HostEvent)
  /-- How many random bytes have been drawn; it selects the free value of the next CXNN
  (R177; log 3). -/
  draws : Nat
deriving DecidableEq, Repr

/-- The state after `reset(ROM)` with the empty ROM and the default parameters (R24, R190): no
field the spec names is left to choice. A ROM is loaded by `State.load` (log 6). -/
def State.reset : State where
  v := Vector.replicate 16 0
  i := 0
  pc := 0x200
  stack := Vector.replicate 16 0
  sp := 0
  mem := []
  display := Vector.replicate 32 (Vector.replicate 64 false)
  dt := 0
  st := 0
  keypad := Vector.replicate 16 false
  runState := .running
  ir := ⟨0, 0, 0, 0, 0, 0⟩
  fault := none
  slot := 0
  config := Config.default
  inputs := []
  draws := 0

end Sys2Proof.Machine
end

