-- ==== Sys2Proof/WellFormed.lean ====
section
/-! DEFINITION. The checks on what comes from outside the machine: an instruction's operand fields
(30_encoding R61, R63) and a ROM image (70_reset R191, R193). -/

namespace Sys2Proof

/-- The operand fields of an instruction as plain numbers, before they are known to fit their
widths. `Operands.check` is the test an assembler's input must pass (R67). -/
structure Operands where
  x : Nat
  y : Nat
  n : Nat
  nn : Nat
  nnn : Nat
deriving DecidableEq, Repr

/-- The operand numbers fit the fields of R61: X, Y and N four bits, NN eight, NNN twelve. -/
def Operands.check (o : Operands) : Bool :=
  decide (o.x < 16) && decide (o.y < 16) && decide (o.n < 16) && decide (o.nn < 256) &&
    decide (o.nnn < 4096)

/-- The operand numbers of an instruction; a field its format does not have is 0. -/
def Instr.operands : Instr → Operands
  | .cls | .ret => ⟨0, 0, 0, 0, 0⟩
  | .jp nnn | .call nnn | .ldI nnn | .jpV0 nnn => ⟨0, 0, 0, 0, nnn.toNat⟩
  | .seImm x nn | .sneImm x nn | .ldImm x nn | .addImm x nn | .rnd x nn => ⟨x.val, 0, 0, nn.toNat, 0⟩
  | .seReg x y | .ldReg x y | .orReg x y | .andReg x y | .xorReg x y | .addReg x y | .sub x y
  | .shr x y | .subn x y | .shl x y | .sneReg x y => ⟨x.val, y.val, 0, 0, 0⟩
  | .drw x y n => ⟨x.val, y.val, n.toNat, 0, 0⟩
  | .skp x | .sknp x | .ldVxK x | .ldVxDt x | .ldDtVx x | .ldStVx x | .addI x | .ldF x | .ldB x
  | .ldMemVx x | .ldVxMem x => ⟨x.val, 0, 0, 0, 0⟩

/-- An instruction is well formed when its operands fit their fields. The types of `Instr` carry
this bound, so every term passes (`Sys2Proof.Instr.wellFormed_all`, Laws/WellFormed.lean): an ill-formed instruction cannot be
built, and the check can refuse only raw operand numbers. -/
def Instr.wellFormed (i : Instr) : Bool := i.operands.check

/-- The largest ROM image, 4096 - 0x200 bytes (R3). -/
def Rom.maxSize : Nat := 3584

/-- A ROM image is well formed when it fits the program region (R191, R193): at most 3584 bytes;
0 and odd lengths are fine. -/
def Rom.check (rom : List Byte) : Bool := decide (rom.length ≤ Rom.maxSize)

end Sys2Proof
end

