-- ==== Sys2Proof/Machine/Ops.lean ====
section
/-! DEFINITION. The named operations over memory, registers and stack, the two ends of a step
(fetch before, commit after), and raising a fault (60_exceptions R151). -/

namespace Sys2Proof.Machine

/-- What running an instruction answers. -/
abbrev Result := Host.Outcome State Fault Refusal

/-! ### Memory (20_memory) -/

/-- The highest address of memory (R40). -/
def topAddress : Nat := 0xFFF

/-- What an address reads as while memory does not list it: the reset image of the default FONT and
the empty ROM (R24, R41, R46), so 0 outside the font region. -/
def Memory.resetByte (a : Nat) : Byte := Config.fontBytes.getD a 0

/-- The byte at an address (R7 `MemRead`, R15). -/
def Memory.read : Memory → Nat → Byte
  | [], a => Memory.resetByte a
  | (k, b) :: m, a => if a = k then b else Memory.read m a

/-- Memory with one byte written (R7 `MemWrite`, R44): the canonical form is kept. -/
def Memory.write : Memory → Nat → Byte → Memory
  | [], a, b => if b = Memory.resetByte a then [] else [(a, b)]
  | (k, c) :: m, a, b =>
    if a < k then
      if b = Memory.resetByte a then (k, c) :: m else (a, b) :: (k, c) :: m
    else if a = k then
      if b = Memory.resetByte a then m else (k, b) :: m
    else (k, c) :: Memory.write m a b

/-- Consecutive bytes written from an address upward, in order. -/
def Memory.writeBytes : Memory → Nat → List Byte → Memory
  | m, _, [] => m
  | m, a, b :: bs => Memory.writeBytes (Memory.write m a b) (a + 1) bs

/-- The canonical form: addresses strictly rising and inside memory, no entry equal to what the
unlisted address reads as. -/
def Memory.wf (m : Memory) : Bool :=
  decide (m.Pairwise fun p q => p.1 < q.1) &&
    m.all fun p => decide (p.1 ≤ topAddress) && decide (p.2 ≠ Memory.resetByte p.1)

/-- The reset image of memory for a FONT and a ROM (70_reset R191). -/
def Memory.image (font : Vector Byte 80) (rom : List Byte) : Memory :=
  Memory.writeBytes (Memory.writeBytes [] 0 font.toList) 0x200 rom

/-! ### Registers -/

/-- Read of general register `r` (R7, R10). -/
def State.getV (s : State) (r : Reg) : Byte := s.v[r]

/-- Write of general register `r` (R7, R10). -/
def State.setV (s : State) (r : Reg) (b : Byte) : State := { s with v := s.v.set r b }

/-- The register that doubles as the flag, VF (R11). -/
def vf : Reg := 15

/-- Write of the index register (R7, R12). -/
def State.setI (s : State) (a : Word) : State := { s with i := a }

/-- Write of the program counter (R7, R13). -/
def State.setPc (s : State) (a : Word) : State := { s with pc := a }

/-- Write of the delay timer (R17). -/
def State.setDt (s : State) (b : Byte) : State := { s with dt := b }

/-- Write of the sound timer (R17). -/
def State.setSt (s : State) (b : Byte) : State := { s with st := b }

/-- The memory replaced (R15). -/
def State.setMem (s : State) (m : Memory) : State := { s with mem := m }

/-- The display replaced (R16). -/
def State.setDisplay (s : State) (d : Display) : State := { s with display := d }

/-- Read of one byte of the state's memory. -/
def State.byteAt (s : State) (a : Nat) : Byte := Memory.read s.mem a

/-! ### The call stack (R14) -/

/-- Push, or nothing when 16 entries are held (R14, R93). -/
def State.push (s : State) (w : Word) : Option State :=
  if h : s.sp.val < 16 then
    some { s with stack := s.stack.set s.sp.val w, sp := ⟨s.sp.val + 1, by omega⟩ }
  else none

/-- Pop: the most recent entry and the state without it, or nothing when none is held (R14, R91). -/
def State.pop (s : State) : Option (Word × State) :=
  if h : 0 < s.sp.val then
    some (s.stack[s.sp.val - 1]'(by omega), { s with sp := ⟨s.sp.val - 1, by omega⟩ })
  else none

/-! ### Fetch, decode, advance: parts 1 to 4 of a step (40_fetch_decode_step R80) -/

/-- Both bytes of the opcode lie in memory: pc ≤ 0xFFE (R81). -/
def State.fetchable (s : State) : Bool := decide (s.pc.toNat + 1 ≤ topAddress)

/-- The opcode at pc, high byte first (R81). -/
def State.fetchWord (s : State) : Word :=
  joinBytes (s.byteAt s.pc.toNat) (s.byteAt (s.pc.toNat + 1))

/-- IR takes the decoded word and pc moves past it, before the instruction executes (R82, R85). -/
def State.fetched (s : State) (op : Word) : State :=
  { s with ir := Fields.ofWord op, pc := s.pc + 2 }

/-! ### Raising a fault, and the end of a step -/

/-- The number of a fault in `FAULT` (R150). -/
def Fault.code : Fault → Nat
  | .fetchOutOfRange => 1
  | .stackOverflow => 2
  | .stackUnderflow => 3
  | .spriteReadOutOfRange => 4
  | .bcdWriteOutOfRange => 5
  | .keyIndexOutOfRange => 6

/-- The value of the register FAULT: a fault's code, or 0 for none (R21, R150). -/
def State.faultCode (s : State) : Nat :=
  match s.fault with
  | none => 0
  | some f => f.code

/-- `raise <Fault>` (R7, R151): FAULT takes the code and nothing else is written. A meaning raises
before it writes anything; what the fetch wrote is discarded when the step ends
(`State.commit`). -/
def raise (f : Fault) (s : State) : Result := .next { s with fault := some f }

/-- The end of a step that began in `before` and ran an instruction that left `after` (R80, R151).
A step that raised nothing has used one slot of its batch (R166, R167). A step that raised a
fault is abandoned: all state is as it was before the step, pc and IR included, and FAULT holds
the fault; no slot is used. -/
def State.commit (before after : State) : State :=
  match after.fault with
  | none => { after with slot := after.slot + 1 }
  | some f => { before with fault := some f }

/-- What a step answers, from what its instruction answered. -/
def State.commitResult (before : State) : Result → Result
  | .next after => .next (before.commit after)
  | .fault f => .fault f
  | .refused r => .refused r

/-- Part 5 of a step for an unknown opcode: nothing (R84). -/
def execUnknown (s : State) : Result := .next s

/-! ### Reset (70_reset) -/

/-- The event `reset(ROM)` (R190, R191, R193), whatever the state was: every piece of state takes
its reset value and memory the reset image; a ROM longer than 3584 bytes is refused and nothing
is loaded. The parameters of the run and the inputs still to come are not state (R23) and stay
(log 6). -/
def State.load (rom : List Byte) (s : State) : Result :=
  if Rom.check rom then
    .next { State.reset with
      mem := Memory.image s.config.font rom
      config := s.config
      inputs := s.inputs
      draws := s.draws }
  else .refused .romTooLarge

end Sys2Proof.Machine
end

