-- ==== Sys2Proof/Machine/Flags.lean ====
section
/-! DEFINITION. Every value an instruction writes to the flag register VF (10_state R11). -/

namespace Sys2Proof.Machine

/-- A condition as a flag value, 1 or 0 (R11). -/
def flagOf (c : Bool) : Byte := if c then 1 else 0

/-- 8XY4: 1 when the unsigned 9-bit sum exceeds 255 (R107). -/
def carryFlag (a b : Byte) : Byte := flagOf (decide (255 < a.toNat + b.toNat))

/-- 8XY5 and 8XY7: 1 when the subtrahend is at most the minuend, that is no borrow (R108, R110). -/
def noBorrowFlag (minuend subtrahend : Byte) : Byte :=
  flagOf (decide (subtrahend.toNat ≤ minuend.toNat))

/-- 8XY6: bit 0, the bit shifted out to the right (R109). -/
def shiftRightFlag (a : Byte) : Byte := a &&& 1

/-- 8XYE: bit 7, the bit shifted out to the left (R111). -/
def shiftLeftFlag (a : Byte) : Byte := (a >>> 7) &&& 1

/-- DXYN: 1 when a drawn sprite bit landed on a cell that was on (R132). -/
def collisionFlag (hit : Bool) : Byte := flagOf hit

end Sys2Proof.Machine
end

