-- ==== Sys2Proof/Machine/Operands.lean ====
section
/-! DEFINITION. The operand forms: the one addressing mode I + k (43_index_memory R120), register
groups V[0] to V[X] (R125, R126), jump targets and skips (41_control_flow R90), a key selected by
a register (45_keypad_timers R140) and the key FX0A reports (R143). -/

namespace Sys2Proof.Machine

/-- The effective address `I + k`, formed exactly: not reduced modulo 4096 (R120). -/
def State.ea (s : State) (k : Nat) : Nat := s.i.toNat + k

/-- All register numbers, and all key codes, in ascending order. -/
def allRegs : List Reg := [0, 1, 2, 3, 4, 5, 6, 7, 8, 9, 10, 11, 12, 13, 14, 15]

/-- The registers V[0] to V[X] that FX55 and FX65 move, both ends included (R63, C3). -/
def regsUpTo (x : Reg) : List Reg := allRegs.filter fun r => decide (r ≤ x)

/-- One element of FX55: V[r] to `I + r`, skipped when that address is beyond memory (R125). -/
def storeReg (s : State) (m : Memory) (r : Reg) : Memory :=
  if s.ea r.val ≤ topAddress then Memory.write m (s.ea r.val) (s.getV r) else m

/-- The memory after FX55: the elements in ascending order (R125). -/
def storeRegs (s : State) (x : Reg) : Memory := (regsUpTo x).foldl (storeReg s) s.mem

/-- One element of FX65: V[r] from `I + r`; V[r] keeps its value when that address is beyond memory
(R126). -/
def loadReg (s : State) (r : Reg) : State :=
  if s.ea r.val ≤ topAddress then s.setV r (s.byteAt (s.ea r.val)) else s

/-- The state after FX65: the elements in ascending order (R126). -/
def loadRegs (s : State) (x : Reg) : State := (regsUpTo x).foldl loadReg s

/-- The three decimal digits of a byte: hundreds, tens, ones (R124). -/
def bcdDigits (b : Byte) : List Byte :=
  [BitVec.ofNat 8 (b.toNat / 100), BitVec.ofNat 8 (b.toNat / 10 % 10), BitVec.ofNat 8 (b.toNat % 10)]

/-- An absolute target or constant NNN, zero-extended to 16 bits (R63). -/
def wide12 (nnn : BitVec 12) : Word := nnn.setWidth 16

/-- A byte zero-extended to 16 bits (R7 `zext_16`). -/
def wide8 (b : Byte) : Word := b.setWidth 16

/-- `pc <- pc + 2` when the condition holds: the next word is passed over, whatever it is (R90). -/
def State.skipIf (s : State) (c : Bool) : State := if c then s.setPc (s.pc + 2) else s

/-- `pc <- pc - 2`: back to the address this instruction was fetched from (R143). -/
def State.rewind (s : State) : State := s.setPc (s.pc - 2)

/-- The key a register selects: its whole value, none when that is above 15 (R140, D8). -/
def keyOf (b : Byte) : Option Reg := if h : b.toNat < 16 then some ⟨b.toNat, h⟩ else none

/-- The keys that are down, lowest first (R143). -/
def downKeys (kp : Keypad) : List Reg := allRegs.filter fun k => kp[k]

end Sys2Proof.Machine

namespace Sys2Proof.Config

/-- `KEYWAIT_PICK` (R143, D9): none with no key down; otherwise a key that is down, the one the
parameter's table gives, or the lowest where the table gives none that is down. -/
def pick (c : Config) (kp : Keypad) : Option Reg :=
  match Machine.downKeys kp with
  | [] => none
  | lowest :: _ =>
    match c.keyPick.find? fun e => decide (e.1 = kp) with
    | some e => if kp[e.2] then some e.2 else some lowest
    | none => some lowest

end Sys2Proof.Config
end

