-- ==== Sys2Proof/Machine/Alu.lean ====
section
/-! DEFINITION. Register load, arithmetic, logic, shifts, random (42_alu): 6XNN, 7XNN, 8XY0 to 8XY7,
8XYE, CXNN. Where an instruction writes VF and V[X], the writes stand in the order of R100, and each
reads the registers as the one before left them. -/

namespace Sys2Proof.Machine

/-- 6XNN: V[X] <- NN (R101). -/
def execLdImm (x : Reg) (nn : Byte) (s : State) : Result := .next (s.setV x nn)

/-- 7XNN: V[X] <- (V[X] + NN) mod 256, no flag (R102). -/
def execAddImm (x : Reg) (nn : Byte) (s : State) : Result := .next (s.setV x (s.getV x + nn))

/-- 8XY0: V[X] <- V[Y] (R103). -/
def execLdReg (x y : Reg) (s : State) : Result := .next (s.setV x (s.getV y))

/-- 8XY1: V[X] <- V[X] OR V[Y], no flag (R104). -/
def execOrReg (x y : Reg) (s : State) : Result := .next (s.setV x (s.getV x ||| s.getV y))

/-- 8XY2: V[X] <- V[X] AND V[Y], no flag (R105). -/
def execAndReg (x y : Reg) (s : State) : Result := .next (s.setV x (s.getV x &&& s.getV y))

/-- 8XY3: V[X] <- V[X] XOR V[Y], no flag (R106). -/
def execXorReg (x y : Reg) (s : State) : Result := .next (s.setV x (s.getV x ^^^ s.getV y))

/-- 8XY4: the sum first, then VF the carry of the operands as they were (R107). -/
def execAddReg (x y : Reg) (s : State) : Result :=
  let a := s.getV x
  let b := s.getV y
  .next ((s.setV x (a + b)).setV vf (carryFlag a b))

/-- 8XY5: VF first, then the difference of the registers as they then stand (R108). -/
def execSub (x y : Reg) (s : State) : Result :=
  let t := s.setV vf (noBorrowFlag (s.getV x) (s.getV y))
  .next (t.setV x (t.getV x - t.getV y))

/-- 8XY6: VF first, then V[X] as it then stands, shifted right in place; Y is ignored (R109, R69). -/
def execShr (x _y : Reg) (s : State) : Result :=
  let t := s.setV vf (shiftRightFlag (s.getV x))
  .next (t.setV x (t.getV x >>> 1))

/-- 8XY7: VF first, then the reverse difference of the registers as they then stand (R110). -/
def execSubn (x y : Reg) (s : State) : Result :=
  let t := s.setV vf (noBorrowFlag (s.getV y) (s.getV x))
  .next (t.setV x (t.getV y - t.getV x))

/-- 8XYE: VF first, then V[X] as it then stands, shifted left in place; Y is ignored (R111, R69). -/
def execShl (x _y : Reg) (s : State) : Result :=
  let t := s.setV vf (shiftLeftFlag (s.getV x))
  .next (t.setV x (t.getV x <<< 1))

/-- CXNN: V[X] <- r AND NN for a fresh draw r, the free value of log 3 (R112, R177). -/
def execRnd (x : Reg) (nn : Byte) (s : State) : Result :=
  let r := Config.randomByte s.draws
  .next { s.setV x (r &&& nn) with draws := s.draws + 1 }

end Sys2Proof.Machine
end

