-- ==== Sys2Proof/Machine/ControlFlow.lean ====
section
/-! DEFINITION. Control transfer (41_control_flow): 00EE, 1NNN, 2NNN, 3XNN, 4XNN, 5XY0, 9XY0, BNNN.
Each meaning starts where part 5 of a step does: pc already holds the fetch address plus 2 (R85). -/

namespace Sys2Proof.Machine

/-- 00EE: pop pc; StackUnderflow when no entry is held (R91, R154). -/
def execRet (s : State) : Result :=
  match s.pop with
  | none => raise .stackUnderflow s
  | some (a, t) => .next (t.setPc a)

/-- 1NNN: pc <- NNN (R92). -/
def execJp (nnn : BitVec 12) (s : State) : Result := .next (s.setPc (wide12 nnn))

/-- 2NNN: push the advanced pc, pc <- NNN; StackOverflow when 16 entries are held (R93, R153). -/
def execCall (nnn : BitVec 12) (s : State) : Result :=
  match s.push s.pc with
  | none => raise .stackOverflow s
  | some t => .next (t.setPc (wide12 nnn))

/-- 3XNN: skip if V[X] = NN (R94). -/
def execSeImm (x : Reg) (nn : Byte) (s : State) : Result :=
  .next (s.skipIf (decide (s.getV x = nn)))

/-- 4XNN: skip if V[X] ≠ NN (R95). -/
def execSneImm (x : Reg) (nn : Byte) (s : State) : Result :=
  .next (s.skipIf (decide (s.getV x ≠ nn)))

/-- 5XY0: skip if V[X] = V[Y] (R96). -/
def execSeReg (x y : Reg) (s : State) : Result :=
  .next (s.skipIf (decide (s.getV x = s.getV y)))

/-- 9XY0: skip if V[X] ≠ V[Y] (R97). -/
def execSneReg (x y : Reg) (s : State) : Result :=
  .next (s.skipIf (decide (s.getV x ≠ s.getV y)))

/-- BNNN: pc <- V[0] + NNN in 16 bits, not masked to 12 (R98). -/
def execJpV0 (nnn : BitVec 12) (s : State) : Result :=
  .next (s.setPc (wide8 (s.getV 0) + wide12 nnn))

end Sys2Proof.Machine
end

