-- ==== Sys2Proof/Machine/DisplayDraw.lean ====
section
/-! DEFINITION. The display (44_display): 00E0, DXYN, the sprite XOR-writer and the collision
detector. -/

namespace Sys2Proof.Machine

/-- The display with every cell off (R131). -/
def blankDisplay : Display := Vector.replicate 32 (Vector.replicate 64 false)

/-- The cell of row y and column x; off outside the 32 rows and 64 columns, where no rule reads
(R16, R130). -/
def cellAt (d : Display) (y x : Nat) : Bool :=
  if h : y < 32 ∧ x < 64 then (d[y]'h.1)[x]'h.2 else false

/-- The display with the cell of row y and column x written; unchanged outside the 32 rows and 64
columns, where no rule writes (R16). -/
def setCell (d : Display) (y x : Nat) (b : Bool) : Display :=
  if h : y < 32 ∧ x < 64 then d.set y ((d[y]'h.1).set x b h.2) h.1 else d

/-- Bit k of a sprite byte counted from the left: k = 0 is bit 7 (R130, R132). -/
def spriteBit (b : Byte) (k : Nat) : Bool := b.getLsbD (7 - k)

/-- One column of a sprite row at row y and column x0 + k, in the display and the collision found
so far: XOR the bit into the cell, collide when both were 1 (R132). -/
def drawColumn (b : Byte) (y x0 : Nat) (c : Display × Bool) (k : Nat) : Display × Bool :=
  let bit := spriteBit b k
  let old := cellAt c.1 y (x0 + k)
  (setCell c.1 y (x0 + k) (old ^^ bit), c.2 || (bit && old))

/-- One sprite row: its columns from the left, stopping past column 63 (R132: clip, no wrap). -/
def drawRow (b : Byte) (y x0 : Nat) (c : Display × Bool) : Display × Bool :=
  (List.range (min 8 (64 - x0))).foldl (drawColumn b y x0) c

/-- The first `rows` rows of the sprite at `base`, from row y0 downward (R132). -/
def drawSprite (m : Memory) (base x0 y0 rows : Nat) (d : Display) : Display × Bool :=
  (List.range rows).foldl (fun c r => drawRow (Memory.read m (base + r)) (y0 + r) x0 c) (d, false)

/-- How many rows of an N-row sprite are drawn from row y0: those on the display (R132). -/
def drawnRows (n : BitVec 4) (y0 : Nat) : Nat := min n.toNat (32 - y0)

/-- The starting column of DXYN: V[X] mod 64 (R132). -/
def startColumn (s : State) (x : Reg) : Nat := (s.getV x).toNat % 64

/-- The starting row of DXYN: V[Y] mod 32 (R132). -/
def startRow (s : State) (y : Reg) : Nat := (s.getV y).toNat % 32

/-- A drawn row of DXYN lies beyond memory (R132, R155). -/
def spriteOutOfRange (s : State) (rows : Nat) : Bool :=
  decide (0 < rows ∧ topAddress < s.ea (rows - 1))

/-- 00E0: every cell off, no flag (R131). -/
def execCls (s : State) : Result := .next (s.setDisplay blankDisplay)

/-- DXYN: the coordinates from the registers before VF is written, SpriteReadOutOfRange before any
write, then the drawn rows and VF the collision (R132, R155). -/
def execDrw (x y : Reg) (n : BitVec 4) (s : State) : Result :=
  let rows := drawnRows n (startRow s y)
  if spriteOutOfRange s rows then raise .spriteReadOutOfRange s
  else
    let c := drawSprite s.mem (s.ea 0) (startColumn s x) (startRow s y) rows s.display
    .next ((s.setDisplay c.1).setV vf (collisionFlag c.2))

end Sys2Proof.Machine
end

