-- ==== Sys2Proof/Machine/IndexMemory.lean ====
section
/-! DEFINITION. Index register and memory transfers (43_index_memory): ANNN, FX1E, FX29, FX33, FX55,
FX65. No transfer changes I (R120). -/

namespace Sys2Proof.Machine

/-- ANNN: I <- NNN (R121). -/
def execLdI (nnn : BitVec 12) (s : State) : Result := .next (s.setI (wide12 nnn))

/-- FX1E: I <- (I + V[X]) AND 0xFFF, no flag (R122). -/
def execAddI (x : Reg) (s : State) : Result :=
  .next (s.setI ((s.i + wide8 (s.getV x)) &&& 0x0FFF))

/-- FX29: I <- V[X] * 5, the whole 8-bit value (R123). -/
def execLdF (x : Reg) (s : State) : Result := .next (s.setI (wide8 (s.getV x) * 5))

/-- FX33: the decimal digits of V[X] to I, I + 1, I + 2; BcdWriteOutOfRange before any write when
I + 2 is beyond memory (R124, R156). -/
def execLdB (x : Reg) (s : State) : Result :=
  if topAddress < s.ea 2 then raise .bcdWriteOutOfRange s
  else .next (s.setMem (Memory.writeBytes s.mem (s.ea 0) (bcdDigits (s.getV x))))

/-- FX55: V[0] to V[X] to memory from I upward, skipping each byte beyond memory (R125). -/
def execLdMemVx (x : Reg) (s : State) : Result := .next (s.setMem (storeRegs s x))

/-- FX65: V[0] to V[X] from memory from I upward, keeping each register whose byte is beyond memory
(R126). -/
def execLdVxMem (x : Reg) (s : State) : Result := .next (loadRegs s x)

end Sys2Proof.Machine
end

