-- ==== Sys2Proof/Machine/KeypadTimers.lean ====
section
/-! DEFINITION. Keypad skips, key wait, timer access (45_keypad_timers): EX9E, EXA1, FX0A, FX07, FX15,
FX18. -/

namespace Sys2Proof.Machine

/-- EX9E: skip if key V[X] is down; KeyIndexOutOfRange when V[X] > 15 (R141, R157). -/
def execSkp (x : Reg) (s : State) : Result :=
  match keyOf (s.getV x) with
  | none => raise .keyIndexOutOfRange s
  | some k => .next (s.skipIf s.keypad[k])

/-- EXA1: skip if key V[X] is up; KeyIndexOutOfRange when V[X] > 15 (R142, R157). -/
def execSknp (x : Reg) (s : State) : Result :=
  match keyOf (s.getV x) with
  | none => raise .keyIndexOutOfRange s
  | some k => .next (s.skipIf (!s.keypad[k]))

/-- FX0A: V[X] <- the key reported, or back to this instruction when no key is down (R143). -/
def execLdVxK (x : Reg) (s : State) : Result :=
  match s.config.pick s.keypad with
  | none => .next s.rewind
  | some k => .next (s.setV x (BitVec.ofNat 8 k.val))

/-- FX07: V[X] <- DT (R144). -/
def execLdVxDt (x : Reg) (s : State) : Result := .next (s.setV x s.dt)

/-- FX15: DT <- V[X] (R145). -/
def execLdDtVx (x : Reg) (s : State) : Result := .next (s.setDt (s.getV x))

/-- FX18: ST <- V[X] (R146). -/
def execLdStVx (x : Reg) (s : State) : Result := .next (s.setSt (s.getV x))

end Sys2Proof.Machine
end

