-- ==== Sys2Proof/Machine/HostInterface.lean ====
section
/-! DEFINITION. The end of a tick (60_exceptions R164, R166): the timer decrement and the yield
point, with the host's events (R168 to R174), and what the host can read (R175, R176). -/

namespace Sys2Proof.Machine

/-- A timer one lower, never below 0 (R164). -/
def decrementTimer (t : Byte) : Byte := if t = 0 then 0 else t - 1

/-- TimerDecrement, both timers (R164). -/
def State.decrementTimers (s : State) : State :=
  { s with dt := decrementTimer s.dt, st := decrementTimer s.st }

/-- `togglePause()` on the run state; no effect after QUIT (R168, R173). -/
def RunState.toggle : RunState → RunState
  | .running => .paused
  | .paused => .running
  | .quit => .quit

/-- The host's events are heeded: no fault, and not after QUIT (R171). -/
def State.heedsHost (s : State) : Bool := decide (s.fault = none) && decide (s.runState ≠ .quit)

/-- One event of the host (R172, R173, R174); without effect while FAULT is set or after QUIT
(R171). -/
def HostEvent.apply (s : State) (e : HostEvent) : State :=
  if s.heedsHost then
    match e with
    | .keyDown k => { s with keypad := s.keypad.set k true }
    | .keyUp k => { s with keypad := s.keypad.set k false }
    | .togglePause => { s with runState := s.runState.toggle }
    | .requestQuit => { s with runState := .quit }
  else s

/-- The events the host delivers at the next yield point (R171: any finite sequence, or none). -/
def State.nextEvents (s : State) : List HostEvent := s.inputs.headD []

/-- The yield point, the last part of a tick that changes state: the host's events in order, and
the next tick starts with no slot used (R166 part 2). -/
def State.yieldPoint (s : State) : State :=
  s.nextEvents.foldl HostEvent.apply { s with inputs := s.inputs.tail, slot := 0 }

/-- The end of a tick that started RUNNING: the timers, then the yield point (R166, R160). -/
def State.endTick (s : State) : State := s.decrementTimers.yieldPoint

/-- What the host can read at a yield point (R175, R176). -/
structure HostView where
  display : Display
  st : Byte
  runState : RunState
  faultCode : Nat
deriving DecidableEq, Repr

/-- The host's reading of the state (R175, R176); it changes nothing. -/
def State.view (s : State) : HostView where
  display := s.display
  st := s.st
  runState := s.runState
  faultCode := s.faultCode

end Sys2Proof.Machine
end

