-- ==== Sys2Proof/Machine/Step.lean ====
section
/-! DEFINITION. One step of the machine: an instruction slot (40_fetch_decode_step R80), or the end
of a tick (60_exceptions R166). -/

namespace Sys2Proof.Machine

/-- The step of R80: fetch or raise FetchOutOfRange, decode, advance, execute, commit (R81 to R85). -/
def instrStep (s : State) : Result :=
  if s.fetchable then
    match decodeWord s.fetchWord with
    | .ok i => s.commitResult (exec i (s.fetched s.fetchWord))
    | .error _ => s.commitResult (execUnknown (s.fetched s.fetchWord))
  else raise .fetchOutOfRange s

/-- One step. A halted core steps no more: the outcome `fault` (R151). After QUIT nothing ever
changes (R170). A PAUSED tick is its yield point alone (R169). A RUNNING tick is `IPT` instruction
slots and then the timers and the yield point (R166); each slot is a step, and so is the end of
the tick (log 8). -/
def step (s : State) : Host.Outcome State Fault Refusal :=
  match s.fault with
  | some f => .fault f
  | none =>
    match s.runState with
    | .quit => .next s
    | .paused => .next s.yieldPoint
    | .running => if s.slot < s.config.ipt then instrStep s else .next s.endTick

/-- The state in which the very next step fetches and runs the instruction whose table word is `w`:
the word is stored at pc, high byte first (R42). Where the state would not take an instruction
step (halted, paused, quit, the slots used up, IPT = 0, pc beyond the last fetchable address), just
that is set so that it does (log 6). -/
def State.withFetchWord (s : State) (nbits w : Nat) : State :=
  let op : Word := BitVec.ofNat 16 (w % 2 ^ nbits)
  let pc : Word := if s.fetchable then s.pc else 0x200
  { s with
    pc := pc
    mem := Memory.writeBytes s.mem pc.toNat [highByte op, lowByte op]
    fault := none
    runState := .running
    config := if 0 < s.config.ipt then s.config else { s.config with rate := 500 }
    slot := if s.slot < s.config.ipt then s.slot else 0 }

end Sys2Proof.Machine
end

