-- ==== Sys2Proof/Safety.lean ====
section
/-! DEFINITION. What counts as a safe state and a safe run, in the terms the statements use. -/

namespace Sys2Proof.Machine

/-- No fault has halted the core (R21, R151). -/
def State.Safe (s : State) : Prop := s.fault = none

/-- The next step is an instruction slot: no fault, RUNNING, a slot of the tick left (R87, R166). -/
def State.InSlot (s : State) : Prop :=
  s.fault = none ∧ s.runState = .running ∧ s.slot < s.config.ipt

/-- The next step is an instruction slot whose opcode lies in memory and is `op` (R81). -/
def State.Fetches (s : State) (op : Word) : Prop :=
  s.InSlot ∧ s.fetchable = true ∧ s.fetchWord = op

/-- The well-formedness of a state (10_state R25), with the canonical form of memory and the bound
of the slot counter beside it. -/
structure State.Inv (s : State) : Prop where
  /-- `I` < 4096 (R12, R25). -/
  indexBound : s.i.toNat < 4096
  /-- `pc` ≤ 0x10FE (R13, R25). -/
  pcBound : s.pc.toNat ≤ 0x10FE
  /-- Every held stack entry is in 2 to 0x1000 (R14, R25). -/
  stackEntries : ∀ k : Fin 16, k.val < s.sp.val → 2 ≤ s.stack[k].toNat ∧ s.stack[k].toNat ≤ 0x1000
  /-- The fields of IR are the fields of its opcode (R20, R25). -/
  irFields : s.ir = Fields.ofWord s.ir.opcode
  /-- Memory is in its canonical form, every listed address inside memory. -/
  memoryForm : s.mem.wf = true
  /-- No more slots are used than the tick has (R22 b, R166). -/
  slotBound : s.slot ≤ s.config.ipt

/-- k steps are taken from s, none of them ends the run, and they leave t (R180). -/
def State.Runs : Nat → State → State → Prop
  | 0, s, t => s = t
  | k + 1, s, t => ∃ u, step s = .next u ∧ State.Runs k u t

/-- A state that some run reaches from s without a fault (R180: a halted state is no final state). -/
def State.SafelyReaches (s t : State) : Prop := (∃ k, State.Runs k s t) ∧ t.Safe

end Sys2Proof.Machine
end

