-- ==== Sys2Proof/Certificates/Slice0/Obligations.lean ====
section
/-! DEFINITION. The statements for the provers. A statement about an instruction is about `exec`, that is
about part 5 of a step (40_fetch_decode_step R80): pc already holds the fetch address plus 2. The
equations give the whole next state, so each is its own frame and completion statement. -/

namespace Sys2Proof.Claims

/-- The instruction is read from one word and no other, the word with this number
(30_encoding R64). -/
def HasWord (i : Instr) (n : Nat) : Prop := ∀ w : Word, decodeWord w = .ok i ↔ w.toNat = n

/-- A 1 of the clipped sprite of DXYN lies on row `r`, column `c` (44_display R132, R133): `x0`,
`y0` is the start, `rows` the rows drawn; bit 7 of a byte is its first column. -/
def SpriteCovers (s : Machine.State) (x0 y0 rows r c : Nat) : Prop :=
  y0 ≤ r ∧ r < y0 + rows ∧ x0 ≤ c ∧ c < x0 + 8 ∧ c ≤ 63 ∧
    (s.byteAt (s.i.toNat + (r - y0))).getLsbD (7 - (c - x0)) = true

/-- The general registers an instruction may write (10_state R11 and the instructions' rules). -/
def MayWriteReg (i : Instr) (r : Reg) : Prop :=
  match i with
  | .cls | .ret | .jp _ | .call _ | .seImm _ _ | .sneImm _ _ | .seReg _ _ | .sneReg _ _ | .ldI _
  | .jpV0 _ | .skp _ | .sknp _ | .ldDtVx _ | .ldStVx _ | .addI _ | .ldF _ | .ldB _ | .ldMemVx _ => False
  | .ldImm x _ | .addImm x _ | .rnd x _ | .ldReg x _ | .orReg x _ | .andReg x _ | .xorReg x _
  | .ldVxK x | .ldVxDt x => r = x
  | .addReg x _ | .sub x _ | .shr x _ | .subn x _ | .shl x _ => r = x ∨ r = 15
  | .drw _ _ _ => r = 15
  | .ldVxMem x => r ≤ x

/-- The instruction, executed in the state, stores byte `b` at address `a`: FX55 each register
whose address lies in memory, FX33 the three digits when all three do (43_index_memory R124,
R125); no other instruction stores (10_state R15). -/
def Stores (i : Instr) (s : Machine.State) (a : Nat) (b : Byte) : Prop :=
  match i with
  | .ldMemVx x => ∃ r : Reg, r ≤ x ∧ a = s.ea r.val ∧ a ≤ 0xFFF ∧ b = s.v[r]
  | .ldB x => s.ea 2 ≤ 0xFFF ∧
      ((a = s.ea 0 ∧ b.toNat = s.v[x].toNat / 100) ∨
       (a = s.ea 1 ∧ b.toNat = s.v[x].toNat / 10 % 10) ∨ (a = s.ea 2 ∧ b.toNat = s.v[x].toNat % 10))
  | .cls | .ret | .jp _ | .call _ | .seImm _ _ | .sneImm _ _ | .seReg _ _ | .ldImm _ _ | .addImm _ _
  | .ldReg _ _ | .orReg _ _ | .andReg _ _ | .xorReg _ _ | .addReg _ _ | .sub _ _ | .shr _ _
  | .subn _ _ | .shl _ _ | .sneReg _ _ | .ldI _ | .jpV0 _ | .rnd _ _ | .drw _ _ _ | .skp _ | .sknp _
  | .ldVxK _ | .ldVxDt _ | .ldDtVx _ | .ldStVx _ | .addI _ | .ldF _ | .ldVxMem _ => False

/-- The instructions that may write pc in part 5 of a step, beyond its advance (10_state R13, the
rules of 41_control_flow, R141, R142, R143). -/
def MayWritePc (i : Instr) : Prop :=
  match i with
  | .ret | .jp _ | .call _ | .seImm _ _ | .sneImm _ _ | .seReg _ _ | .sneReg _ _ | .jpV0 _
  | .skp _ | .sknp _ | .ldVxK _ => True
  | .cls | .ldImm _ _ | .addImm _ _ | .ldReg _ _ | .orReg _ _ | .andReg _ _ | .xorReg _ _
  | .addReg _ _ | .sub _ _ | .shr _ _ | .subn _ _ | .shl _ _ | .ldI _ | .rnd _ _ | .drw _ _ _
  | .ldVxDt _ | .ldDtVx _ | .ldStVx _ | .addI _ | .ldF _ | .ldB _ | .ldMemVx _ | .ldVxMem _ => False

end Sys2Proof.Claims

open Sys2Proof Sys2Proof.Machine Sys2Proof.Claims

/-! ### Encoding -/

/-- Words written out from the patterns of R64, one of each format and family, and the
instruction each stands for; and unknown words beside them (R66). -/
def Obligations.SampleWordsDecode : Prop :=
  decodeWord 0x00E0 = .ok .cls ∧ decodeWord 0x00EE = .ok .ret ∧
  decodeWord 0x1ABC = .ok (.jp 0xABC) ∧ decodeWord 0x3A05 = .ok (.seImm 10 0x05) ∧
  decodeWord 0x5120 = .ok (.seReg 1 2) ∧ decodeWord 0x8126 = .ok (.shr 1 2) ∧
  decodeWord 0xD125 = .ok (.drw 1 2 5) ∧ decodeWord 0xE3A1 = .ok (.sknp 3) ∧
  decodeWord 0xF50A = .ok (.ldVxK 5) ∧ decodeWord 0xF265 = .ok (.ldVxMem 2) ∧
  decodeWord 0x01E0 = .error (.unknownOpcode 0x01E0) ∧
  decodeWord 0x9121 = .error (.unknownOpcode 0x9121) ∧
  decodeBytes [0x6A, 0x55, 0x12] = .ok (.ldImm 10 0x55, [0x12])

/-- Decoding the bytes of a well-formed instruction, whatever bytes follow, gives it back with every
operand (R60 to R64, R42). -/
def Obligations.DecodeOfEncodeIsTheInstruction : Prop :=
  ∀ (i : Instr) (rest : List Byte), i.wellFormed = true →
    decodeBytes (encodeBytes i ++ rest) = .ok (i, rest)

/-- Encoding what a word decodes to gives the word back: no bit of a word is dropped, the ignored
field of SHR and SHL included (R64, R69). -/
def Obligations.EncodeOfDecodedWordIsTheWord : Prop :=
  ∀ (w : Word) (i : Instr), decodeWord w = .ok i → encode i = w

/-- A word is an instruction of a row exactly when `word AND mask = match`; a word that no row
selects is rejected as unknown; and no word is selected by two rows (R64, R66). -/
def Obligations.WordsDecodeByTheRowsOfTheOpcodeMap : Prop :=
  (∀ (w : Word) (k : Nat) (r : OpcodeRow), opcodeTable[k]? = some r →
    (w &&& r.mask = r.pattern ↔ ∃ i, decodeWord w = .ok i ∧ rowIndex i = k)) ∧
  (∀ w : Word, (∀ r ∈ opcodeTable, w &&& r.mask ≠ r.pattern) ↔
    decodeWord w = .error (.unknownOpcode w)) ∧
  (∀ (w : Word) (j k : Nat) (q r : OpcodeRow), opcodeTable[j]? = some q → opcodeTable[k]? = some r →
    w &&& q.mask = q.pattern → w &&& r.mask = r.pattern → j = k)

/-- The five fields, by the source's formulas, from every opcode; the family, the overlaps, and the
fields as the two bytes hold them (R61). -/
def Obligations.FieldsAreThoseOfTheOpcode : Prop :=
  ∀ op : Word, (Fields.ofWord op).opcode = op ∧
    (Fields.ofWord op).nnn.toNat = op.toNat &&& 0x0FFF ∧
    (Fields.ofWord op).nn.toNat = op.toNat &&& 0x00FF ∧
    (Fields.ofWord op).n.toNat = op.toNat &&& 0x000F ∧
    (Fields.ofWord op).x.toNat = (op.toNat >>> 8) &&& 0xF ∧
    (Fields.ofWord op).y.toNat = (op.toNat >>> 4) &&& 0xF ∧
    (Fields.ofWord op).nnn = (Fields.ofWord op).x ++ ((Fields.ofWord op).y ++ (Fields.ofWord op).n) ∧
    (Fields.ofWord op).nn = (Fields.ofWord op).y ++ (Fields.ofWord op).n ∧
    familyOf op = op.toNat >>> 12 ∧
    highByte op = op.extractLsb' 12 4 ++ (Fields.ofWord op).x ∧ lowByte op = (Fields.ofWord op).nn

/-! ### The step -/

/-- When the bytes at pc decode to an instruction, the step is `exec` of it on the state in which
IR holds the word and pc has moved past it; a step that raised nothing has used a slot, one that
raised a fault keeps nothing but FAULT (R80, R82, R85, R151). -/
def Obligations.StepRunsTheDecodedInstruction : Prop :=
  ∀ (s t : State) (i : Instr),
    s.fault = none → s.runState = .running → s.slot < s.config.ipt → s.pc.toNat ≤ 0xFFE →
    decodeBytes [s.byteAt s.pc.toNat, s.byteAt (s.pc.toNat + 1)] = .ok (i, []) →
    exec i { s with ir := Fields.ofWord (encode i), pc := s.pc + 2 } = .next t →
    step s = .next (if t.fault = none then { t with slot := t.slot + 1 } else { s with fault := t.fault })

/-- The opcode is the two bytes at pc, high byte first, when both lie in memory; otherwise
FetchOutOfRange is raised with nothing else changed; pc may be odd (R81). -/
def Obligations.FetchReadsTwoBytesOrFaults : Prop :=
  (∀ s : State, s.InSlot → 0xFFE < s.pc.toNat →
    step s = .next { s with fault := some .fetchOutOfRange }) ∧
  (∀ s : State, s.InSlot → s.pc.toNat ≤ 0xFFE →
    s.fetchWord.toNat = (s.byteAt s.pc.toNat).toNat * 256 + (s.byteAt (s.pc.toNat + 1)).toNat ∧
    ∀ t, step s = .next t → t.fault ≠ some .fetchOutOfRange ∧
      (t.fault = none → t.ir = Fields.ofWord s.fetchWord))

/-- IR takes the opcode and its fields at every successful fetch and keeps its value otherwise, a
faulting step included (R82). -/
def Obligations.InstructionRegisterHoldsTheLastFetch : Prop :=
  ∀ s t : State, step s = .next t →
    (s.InSlot ∧ t.fault = none →
      t.ir.opcode = s.fetchWord ∧
      t.ir.nnn = s.fetchWord.extractLsb' 0 12 ∧ t.ir.nn = s.fetchWord.extractLsb' 0 8 ∧
      t.ir.n = s.fetchWord.extractLsb' 0 4 ∧ t.ir.x = s.fetchWord.extractLsb' 8 4 ∧
      t.ir.y = s.fetchWord.extractLsb' 4 4) ∧
    (¬ (s.InSlot ∧ t.fault = none) → t.ir = s.ir)

/-- A word that no row of the opcode map selects is a no-op: IR and pc as after any fetch, one slot
used, nothing else (R84). -/
def Obligations.UnknownOpcodeIsANoOp : Prop :=
  ∀ s : State, s.InSlot → s.pc.toNat ≤ 0xFFE →
    (∀ r ∈ opcodeTable, s.fetchWord &&& r.mask ≠ r.pattern) →
    step s = .next { s with ir := Fields.ofWord s.fetchWord, pc := s.pc + 2, slot := s.slot + 1 }

/-- Every instruction answers a next state in every state: none is refused, and a fault it raises
is a next state with FAULT set (R150, R151). -/
def Obligations.EveryInstructionAnswersANextState : Prop :=
  ∀ (i : Instr) (s : State), ∃ t, exec i s = .next t

/-! ### Faults -/

/-- A step that raises a fault leaves everything as it was before the step but FAULT, slot and
timers included; a halted core takes no step, heeds no event of the host, can still be read, and
reset leaves that condition (R151). -/
def Obligations.FaultsArePreciseAndHalt : Prop :=
  (∀ s t : State, step s = .next t → t.fault ≠ none → t = { s with fault := t.fault }) ∧
  (∀ (s : State) (f : Fault), s.fault = some f → step s = .fault f) ∧
  (∀ (s : State) (f : Fault) (e : HostEvent), s.fault = some f → HostEvent.apply s e = s) ∧
  (∀ (s : State) (f : Fault), s.fault = some f →
    s.view = ⟨s.display, s.st, s.runState, f.code⟩) ∧
  (∀ (s : State) (rom : List Byte), rom.length ≤ 3584 →
    ∃ t, s.load rom = .next t ∧ t.fault = none)

/-- The six faults with their codes, each raised exactly under its condition; no other instruction
and no other condition raises one (R150). -/
def Obligations.StepRaisesExactlyTheSixFaults : Prop :=
  (Fault.code .fetchOutOfRange = 1 ∧ Fault.code .stackOverflow = 2 ∧
   Fault.code .stackUnderflow = 3 ∧ Fault.code .spriteReadOutOfRange = 4 ∧
   Fault.code .bcdWriteOutOfRange = 5 ∧ Fault.code .keyIndexOutOfRange = 6) ∧
  ∀ s : State, s.InSlot → ∃ t, step s = .next t ∧
    (t.fault = none → t.faultCode = 0) ∧ (∀ f, t.fault = some f → t.faultCode = f.code) ∧
    (t.fault = some .fetchOutOfRange ↔ 0xFFE < s.pc.toNat) ∧
    (t.fault = some .stackOverflow ↔ s.pc.toNat ≤ 0xFFE ∧
      (∃ nnn, decodeWord s.fetchWord = .ok (.call nnn)) ∧ s.sp = 16) ∧
    (t.fault = some .stackUnderflow ↔ s.pc.toNat ≤ 0xFFE ∧
      decodeWord s.fetchWord = .ok .ret ∧ s.sp = 0) ∧
    (t.fault = some .spriteReadOutOfRange ↔ s.pc.toNat ≤ 0xFFE ∧
      ∃ x y n, decodeWord s.fetchWord = .ok (.drw x y n) ∧
        ∃ r : Nat, r < n.toNat ∧ r < 32 - s.v[y].toNat % 32 ∧ 0xFFF < s.i.toNat + r) ∧
    (t.fault = some .bcdWriteOutOfRange ↔ s.pc.toNat ≤ 0xFFE ∧
      (∃ x, decodeWord s.fetchWord = .ok (.ldB x)) ∧ 0xFFF < s.i.toNat + 2) ∧
    (t.fault = some .keyIndexOutOfRange ↔ s.pc.toNat ≤ 0xFFE ∧
      ∃ x, (decodeWord s.fetchWord = .ok (.skp x) ∨ decodeWord s.fetchWord = .ok (.sknp x)) ∧
        15 < s.v[x].toNat)

/-! ### Timers, scheduler, run state, host -/

/-- The timer decrement: at the end of a RUNNING tick each timer is one lower, never below 0, and
at no instruction; a PAUSED tick leaves both (R164). -/
def Obligations.TimersDecrementOncePerRunningTick : Prop :=
  (∀ s : State, s.fault = none → s.runState = .running → s.config.ipt ≤ s.slot →
    ∃ t, step s = .next t ∧ t.dt.toNat = (if 0 < s.dt.toNat then s.dt.toNat - 1 else 0) ∧
      t.st.toNat = (if 0 < s.st.toNat then s.st.toNat - 1 else 0)) ∧
  (∀ s : State, s.fault = none → s.runState = .paused →
    ∃ t, step s = .next t ∧ t.dt = s.dt ∧ t.st = s.st) ∧
  (∀ s t : State, s.InSlot → step s = .next t →
    (t.dt ≠ s.dt → ∃ x, decodeWord s.fetchWord = .ok (.ldDtVx x) ∧ t.dt = s.v[x]) ∧
    (t.st ≠ s.st → ∃ x, decodeWord s.fetchWord = .ok (.ldStVx x) ∧ t.st = s.v[x]))

/-- The end of a RUNNING tick: each timer decremented (R164), then the host's events in order, and
the next tick starts with no slot used; nothing else changes (R166, R171). That the events are the
head of a list in State, and none once it is empty, is the model's choice (log 2); that the end of a
tick is one step, which leaves the slot count 0, is its choice too (log 8). -/
def Obligations.TickEndsWithTimersThenHostEvents : Prop :=
  ∀ s : State, s.fault = none → s.runState = .running → s.config.ipt ≤ s.slot →
    (s.inputs = [] → step s =
      .next { s with dt := decrementTimer s.dt, st := decrementTimer s.st, slot := 0 }) ∧
    (∀ es rest, s.inputs = es :: rest → step s =
      .next (es.foldl HostEvent.apply
        { s with dt := decrementTimer s.dt, st := decrementTimer s.st, slot := 0, inputs := rest }))

/-- In a PAUSED tick no instruction runs and no timer moves: the host's events act on keypad and run
state, and all other state survives (R169). That the events are taken from a list in State is the
model's choice (log 2); that a PAUSED tick is one step, which leaves the slot count 0, is its choice
too (log 8). -/
def Obligations.PausedTickChangesOnlyKeypadAndRunState : Prop :=
  ∀ s : State, s.fault = none → s.runState = .paused →
    ∃ t, step s = .next t ∧
      t = { s with keypad := t.keypad, runState := t.runState, inputs := s.inputs.tail, slot := 0 } ∧
      (s.inputs = [] → t.keypad = s.keypad ∧ t.runState = .paused) ∧
      (∀ es rest, s.inputs = es :: rest →
        t.keypad = (es.foldl HostEvent.apply s).keypad ∧
        t.runState = (es.foldl HostEvent.apply s).runState)

/-- The transitions of the run state, and that no instruction step makes one (R168). -/
def Obligations.RunStateFollowsItsTransitionTable : Prop :=
  (∀ s : State, s.fault = none → s.runState = .running →
    HostEvent.apply s .togglePause = { s with runState := .paused } ∧
    HostEvent.apply s .requestQuit = { s with runState := .quit }) ∧
  (∀ s : State, s.fault = none → s.runState = .paused →
    HostEvent.apply s .togglePause = { s with runState := .running } ∧
    HostEvent.apply s .requestQuit = { s with runState := .quit }) ∧
  (∀ (s : State) (e : HostEvent), s.runState = .quit → HostEvent.apply s e = s) ∧
  (∀ s t : State, s.InSlot → step s = .next t → t.runState = s.runState)

/-- QUIT is terminal: no step changes anything any more, no event has any effect, and only reset
leaves it (R170). -/
def Obligations.QuitIsTerminal : Prop :=
  (∀ s : State, s.fault = none → s.runState = .quit → step s = .next s) ∧
  (∀ (s : State) (es : List HostEvent), s.runState = .quit → es.foldl HostEvent.apply s = s) ∧
  (∀ (s : State) (rom : List Byte), s.runState = .quit → rom.length ≤ 3584 →
    ∃ t, s.load rom = .next t ∧ t.runState = .running)

/-- `keyDown` and `keyUp` write one latch and nothing else, in RUNNING and in PAUSED; a second
`keyDown` changes nothing; `keyUp` undoes a `keyDown` of a key that was up (R172). -/
def Obligations.KeyEventsWriteOneLatch : Prop :=
  ∀ (s : State) (k : Reg), s.fault = none → s.runState ≠ .quit →
    HostEvent.apply s (.keyDown k) = { s with keypad := s.keypad.set k true } ∧
    HostEvent.apply s (.keyUp k) = { s with keypad := s.keypad.set k false } ∧
    HostEvent.apply (HostEvent.apply s (.keyDown k)) (.keyDown k) = HostEvent.apply s (.keyDown k) ∧
    (s.keypad[k] = true → HostEvent.apply s (.keyDown k) = s) ∧
    (s.keypad[k] = false → HostEvent.apply (HostEvent.apply s (.keyDown k)) (.keyUp k) = s)

/-- A RUNNING tick is exactly `IPT` instruction steps and then its end: after k steps without a
fault k slots are used, host-side state is as at the start, and the tick ends exactly when k is
`IPT` (R166, R167 a and d). -/
def Obligations.RunningTickIsIptStepsThenItsEnd : Prop :=
  ∀ (k : Nat) (s u : State), s.fault = none → s.runState = .running → s.slot = 0 →
    k ≤ s.config.ipt → State.Runs k s u → u.fault = none →
    u.slot = k ∧ u.runState = .running ∧ u.keypad = s.keypad ∧ u.inputs = s.inputs ∧
    u.config = s.config ∧ (k < s.config.ipt → u.InSlot) ∧
    (k = s.config.ipt → step u = .next u.endTick)

/-! ### Reset -/

/-- After reset with a ROM of at most 3584 bytes the state is exactly that of R24, whatever the
state was (R24, R191). -/
def Obligations.ResetGivesTheStatedState : Prop :=
  ∀ (s : State) (rom : List Byte), rom.length ≤ 3584 → ∃ t, s.load rom = .next t ∧
    (∀ r : Reg, t.v[r] = 0) ∧ t.i = 0 ∧ t.pc = 0x200 ∧ t.sp = 0 ∧ (∀ k : Fin 16, t.stack[k] = 0) ∧
    (∀ k : Fin 80, t.byteAt k.val = s.config.font[k]) ∧
    (∀ a, 0x050 ≤ a → a ≤ 0x1FF → t.byteAt a = 0) ∧
    (∀ (k : Nat) (h : k < rom.length), t.byteAt (0x200 + k) = rom[k]) ∧
    (∀ a, 0x200 + rom.length ≤ a → a ≤ 0xFFF → t.byteAt a = 0) ∧
    (∀ y x, cellAt t.display y x = false) ∧ t.dt = 0 ∧ t.st = 0 ∧
    (∀ k : Reg, t.keypad[k] = false) ∧ t.runState = .running ∧ t.ir = ⟨0, 0, 0, 0, 0, 0⟩ ∧
    t.faultCode = 0 ∧ t.slot = 0

/-- A reset has an effect exactly when the ROM has at most 3584 bytes: it then answers a state with
the invariant, whatever the state was; a longer ROM is refused (R193; the refusal is D21). -/
def Obligations.ResetIsRefusedExactlyForALongRom : Prop :=
  ∀ (s : State) (rom : List Byte),
    (rom.length ≤ 3584 → ∃ t, s.load rom = .next t ∧ t.Inv ∧ (t.InSlot ↔ 0 < t.config.ipt)) ∧
    (3584 < rom.length → s.load rom = .refused .romTooLarge)

/-- `State.reset` is reset with the empty ROM from the default parameters. The default FONT is the
model's presumption (log 5), the empty ROM its choice (log 6). -/
def Obligations.ResetConstantIsTheResetWithTheEmptyRom : Prop :=
  State.load [] State.reset = .next State.reset ∧ State.reset.config.ipt = 8 ∧
  State.reset.pc = 0x200 ∧ State.reset.runState = .running ∧ State.reset.fault = none

/-! ### Invariant -/

/-- The invariant of R25 with the canonical form of memory, kept by every step from every state
that has it. -/
def Obligations.StepKeepsTheInvariant : Prop :=
  ∀ s t : State, s.Inv → step s = .next t → t.Inv

/-- The state after reset has the invariant. -/
def Obligations.ResetHasTheInvariant : Prop := State.reset.Inv

/-! ### Control flow (41_control_flow) -/

/-- 00EE (R91). -/
def Obligations.ReturnPopsTheStack : Prop :=
  HasWord .ret 0x00EE ∧
  (∀ s : State, s.sp = 0 → exec .ret s = .next { s with fault := some .stackUnderflow }) ∧
  (∀ (s : State) (k : Fin 16), s.sp = k.succ →
    exec .ret s = .next { s with sp := k.castSucc, pc := s.stack[k] })

/-- 1NNN (R92). -/
def Obligations.JumpLoadsThePc : Prop :=
  ∀ nnn : BitVec 12, HasWord (.jp nnn) (0x1000 + nnn.toNat) ∧
    ∀ s : State, exec (.jp nnn) s = .next { s with pc := nnn.setWidth 16 }

/-- 2NNN (R93). -/
def Obligations.CallPushesTheAdvancedPc : Prop :=
  ∀ nnn : BitVec 12, HasWord (.call nnn) (0x2000 + nnn.toNat) ∧
    (∀ s : State, s.sp = 16 → exec (.call nnn) s = .next { s with fault := some .stackOverflow }) ∧
    (∀ (s : State) (k : Fin 16), s.sp = k.castSucc →
      exec (.call nnn) s =
        .next { s with stack := s.stack.set k s.pc, sp := k.succ, pc := nnn.setWidth 16 })

/-- A return after a call, at the same stack depth and with the pushed slot intact, leaves pc at
the instruction after the call and SP as before it, whatever else happened (R99). -/
def Obligations.ReturnAfterCallRestoresThePc : Prop :=
  ∀ (nnn : BitVec 12) (s u w : State), s.sp.val < 16 → exec (.call nnn) s = .next u →
    w.sp = u.sp → (∀ k : Fin 16, k.val < u.sp.val → w.stack[k] = u.stack[k]) →
    ∃ t, exec .ret w = .next t ∧ t.pc = s.pc ∧ t.sp = s.sp ∧
      ∀ k : Fin 16, k.val < s.sp.val → t.stack[k] = s.stack[k]

/-- 3XNN and 4XNN (R94, R95). -/
def Obligations.ImmediateSkips : Prop :=
  ∀ (x : Reg) (nn : Byte),
    HasWord (.seImm x nn) (0x3000 + x.val * 256 + nn.toNat) ∧
    HasWord (.sneImm x nn) (0x4000 + x.val * 256 + nn.toNat) ∧
    ∀ s : State,
      exec (.seImm x nn) s = .next { s with pc := if s.v[x] = nn then s.pc + 2 else s.pc } ∧
      exec (.sneImm x nn) s = .next { s with pc := if s.v[x] = nn then s.pc else s.pc + 2 }

/-- 5XY0 and 9XY0 (R96, R97). -/
def Obligations.RegisterSkips : Prop :=
  ∀ x y : Reg,
    HasWord (.seReg x y) (0x5000 + x.val * 256 + y.val * 16) ∧
    HasWord (.sneReg x y) (0x9000 + x.val * 256 + y.val * 16) ∧
    ∀ s : State,
      exec (.seReg x y) s = .next { s with pc := if s.v[x] = s.v[y] then s.pc + 2 else s.pc } ∧
      exec (.sneReg x y) s = .next { s with pc := if s.v[x] = s.v[y] then s.pc else s.pc + 2 }

/-- BNNN: the exact sum, not masked (R98). -/
def Obligations.JumpWithOffsetAddsV0 : Prop :=
  ∀ nnn : BitVec 12, HasWord (.jpV0 nnn) (0xB000 + nnn.toNat) ∧
    ∀ s : State, ∃ a : Word, a.toNat = s.v[0].toNat + nnn.toNat ∧
      exec (.jpV0 nnn) s = .next { s with pc := a }

/-! ### Arithmetic and logic (42_alu) -/

/-- 6XNN and 7XNN (R101, R102). -/
def Obligations.ImmediateLoadAndAdd : Prop :=
  ∀ (x : Reg) (nn : Byte),
    HasWord (.ldImm x nn) (0x6000 + x.val * 256 + nn.toNat) ∧
    HasWord (.addImm x nn) (0x7000 + x.val * 256 + nn.toNat) ∧
    ∀ s : State, exec (.ldImm x nn) s = .next { s with v := s.v.set x nn } ∧
      ∃ b : Byte, b.toNat = (s.v[x].toNat + nn.toNat) % 256 ∧
        exec (.addImm x nn) s = .next { s with v := s.v.set x b }

/-- 8XY0, 8XY1, 8XY2, 8XY3: one register written, no flag (R103 to R106). -/
def Obligations.CopyAndLogicWriteOneRegister : Prop :=
  ∀ x y : Reg,
    HasWord (.ldReg x y) (0x8000 + x.val * 256 + y.val * 16) ∧
    HasWord (.orReg x y) (0x8001 + x.val * 256 + y.val * 16) ∧
    HasWord (.andReg x y) (0x8002 + x.val * 256 + y.val * 16) ∧
    HasWord (.xorReg x y) (0x8003 + x.val * 256 + y.val * 16) ∧
    ∀ s : State,
      exec (.ldReg x y) s = .next { s with v := s.v.set x s.v[y] } ∧
      exec (.orReg x y) s = .next { s with v := s.v.set x (s.v[x] ||| s.v[y]) } ∧
      exec (.andReg x y) s = .next { s with v := s.v.set x (s.v[x] &&& s.v[y]) } ∧
      exec (.xorReg x y) s = .next { s with v := s.v.set x (s.v[x] ^^^ s.v[y]) }

/-- 8XY4: the sum modulo 256, then VF the carry, which overwrites the sum when X is 0xF (R107; the
order is D11). -/
def Obligations.AddReportsTheCarry : Prop :=
  ∀ x y : Reg, HasWord (.addReg x y) (0x8004 + x.val * 256 + y.val * 16) ∧
    ∀ s : State, ∃ t, exec (.addReg x y) s = .next t ∧ t = { s with v := t.v } ∧
      (∀ r : Reg, r ≠ x → r ≠ 15 → t.v[r] = s.v[r]) ∧
      (x ≠ 15 → t.v[x].toNat = (s.v[x].toNat + s.v[y].toNat) % 256) ∧
      t.v[15] = (if 255 < s.v[x].toNat + s.v[y].toNat then 1 else 0)

/-- 8XY5, case by case (R108; the order is D11). `f` is the flag: 1 when there is no borrow. -/
def Obligations.SubtractByItsTable : Prop :=
  ∀ x y : Reg, HasWord (.sub x y) (0x8005 + x.val * 256 + y.val * 16) ∧
    ∀ (s : State) (f : Byte), f = (if s.v[y].toNat ≤ s.v[x].toNat then 1 else 0) →
      ∃ t, exec (.sub x y) s = .next t ∧ t = { s with v := t.v } ∧
        (∀ r : Reg, r ≠ x → r ≠ 15 → t.v[r] = s.v[r]) ∧
        (x ≠ 15 → y ≠ 15 → t.v[15] = f ∧ t.v[x] = s.v[x] - s.v[y]) ∧
        (x = y → x ≠ 15 → t.v[15] = 1 ∧ t.v[x] = 0) ∧
        (x = 15 → y ≠ 15 → t.v[15] = f - s.v[y]) ∧
        (y = 15 → x ≠ 15 → t.v[15] = f ∧ t.v[x] = s.v[x] - f) ∧
        (x = 15 → y = 15 → t.v[15] = 0)

/-- 8XY7, case by case (R110; the order is D11). `f` is the flag: 1 when there is no borrow. -/
def Obligations.ReverseSubtractByItsTable : Prop :=
  ∀ x y : Reg, HasWord (.subn x y) (0x8007 + x.val * 256 + y.val * 16) ∧
    ∀ (s : State) (f : Byte), f = (if s.v[x].toNat ≤ s.v[y].toNat then 1 else 0) →
      ∃ t, exec (.subn x y) s = .next t ∧ t = { s with v := t.v } ∧
        (∀ r : Reg, r ≠ x → r ≠ 15 → t.v[r] = s.v[r]) ∧
        (x ≠ 15 → y ≠ 15 → t.v[15] = f ∧ t.v[x] = s.v[y] - s.v[x]) ∧
        (x = y → x ≠ 15 → t.v[15] = 1 ∧ t.v[x] = 0) ∧
        (x = 15 → y ≠ 15 → t.v[15] = s.v[y] - f) ∧
        (y = 15 → x ≠ 15 → t.v[15] = f ∧ t.v[x] = f - s.v[x]) ∧
        (x = 15 → y = 15 → t.v[15] = 0)

/-- 8XY6: V[X] shifted right in place, VF the bit shifted out; 0 in VF when X is 0xF; the field Y
has no effect (R109; the order is D11). -/
def Obligations.ShiftRightReportsBit0 : Prop :=
  ∀ x y : Reg, HasWord (.shr x y) (0x8006 + x.val * 256 + y.val * 16) ∧
    ∀ s : State, ∃ t, exec (.shr x y) s = .next t ∧ t = { s with v := t.v } ∧
      (∀ r : Reg, r ≠ x → r ≠ 15 → t.v[r] = s.v[r]) ∧
      (x ≠ 15 → t.v[15].toNat = s.v[x].toNat % 2 ∧ t.v[x].toNat = s.v[x].toNat / 2) ∧
      (x = 15 → t.v[15] = 0)

/-- 8XYE: V[X] shifted left in place, VF the bit shifted out; 0 or 2 in VF when X is 0xF; the field
Y has no effect (R111; the order is D11). -/
def Obligations.ShiftLeftReportsBit7 : Prop :=
  ∀ x y : Reg, HasWord (.shl x y) (0x800E + x.val * 256 + y.val * 16) ∧
    ∀ s : State, ∃ t, exec (.shl x y) s = .next t ∧ t = { s with v := t.v } ∧
      (∀ r : Reg, r ≠ x → r ≠ 15 → t.v[r] = s.v[r]) ∧
      (x ≠ 15 → t.v[15].toNat = s.v[x].toNat / 128 ∧ t.v[x].toNat = s.v[x].toNat * 2 % 256) ∧
      (x = 15 → t.v[15] = (if s.v[x].toNat < 128 then 0 else 2))

/-- CXNN: V[X] is some byte ANDed with NN, so no bit outside NN is set; the next draw is a fresh one.
The byte is the model's free value (log 3), and nothing is said of it (R112). -/
def Obligations.RandomIsSomeByteMasked : Prop :=
  ∀ (x : Reg) (nn : Byte), HasWord (.rnd x nn) (0xC000 + x.val * 256 + nn.toNat) ∧
    ∀ s : State, ∃ r : Byte,
      exec (.rnd x nn) s = .next { s with v := s.v.set x (r &&& nn), draws := s.draws + 1 } ∧
      (r &&& nn) &&& ~~~nn = 0

/-! ### Index register and memory transfers (43_index_memory) -/

/-- ANNN, FX1E, FX29: I as a number, below 4096 in each case, no flag (R121, R122, R123). -/
def Obligations.IndexLoads : Prop :=
  (∀ nnn : BitVec 12, HasWord (.ldI nnn) (0xA000 + nnn.toNat) ∧
    ∀ s : State, ∃ a : Word, a.toNat = nnn.toNat ∧ exec (.ldI nnn) s = .next { s with i := a }) ∧
  (∀ x : Reg, HasWord (.addI x) (0xF01E + x.val * 256) ∧ HasWord (.ldF x) (0xF029 + x.val * 256) ∧
    ∀ s : State,
      (∃ a : Word, a.toNat = (s.i.toNat + s.v[x].toNat) % 4096 ∧
        exec (.addI x) s = .next { s with i := a }) ∧
      (∃ a : Word, a.toNat = s.v[x].toNat * 5 ∧ exec (.ldF x) s = .next { s with i := a }))

/-- FX33: the decimal digits of V[X] at I, I + 1, I + 2, every other byte and all other state as
before; BcdWriteOutOfRange before any write when I + 2 is beyond memory (R124; the fault is D7). -/
def Obligations.DecimalDigitsAreStored : Prop :=
  ∀ x : Reg, HasWord (.ldB x) (0xF033 + x.val * 256) ∧
    (∀ s : State, 0xFFF < s.ea 2 → exec (.ldB x) s = .next { s with fault := some .bcdWriteOutOfRange }) ∧
    (∀ s : State, s.mem.wf = true → s.ea 2 ≤ 0xFFF → ∃ t, exec (.ldB x) s = .next t ∧
      t = { s with mem := t.mem } ∧ t.mem.wf = true ∧ s.ea 0 = s.i.toNat ∧
      (t.byteAt (s.ea 0)).toNat = s.v[x].toNat / 100 ∧
      (t.byteAt (s.ea 1)).toNat = s.v[x].toNat / 10 % 10 ∧
      (t.byteAt (s.ea 2)).toNat = s.v[x].toNat % 10 ∧
      ∀ a, a ≠ s.ea 0 → a ≠ s.ea 1 → a ≠ s.ea 2 → t.byteAt a = s.byteAt a)

/-- FX55: V[0] to V[X] at I upward, an element beyond 0xFFF skipped on its own; every other byte and
all other state as before (R125). -/
def Obligations.RegistersAreStored : Prop :=
  ∀ x : Reg, HasWord (.ldMemVx x) (0xF055 + x.val * 256) ∧
    ∀ s : State, s.mem.wf = true → ∃ t, exec (.ldMemVx x) s = .next t ∧
      t = { s with mem := t.mem } ∧ t.mem.wf = true ∧ s.ea 0 = s.i.toNat ∧
      (∀ r : Reg, r ≤ x → s.ea r.val ≤ 0xFFF → t.byteAt (s.ea r.val) = s.v[r]) ∧
      (∀ a, (∀ r : Reg, r ≤ x → s.ea r.val ≤ 0xFFF → a ≠ s.ea r.val) → t.byteAt a = s.byteAt a)

/-- FX65: V[0] to V[X] from I upward, a register whose byte is beyond 0xFFF kept; memory, I and all
other state as before (R126). -/
def Obligations.RegistersAreLoaded : Prop :=
  ∀ x : Reg, HasWord (.ldVxMem x) (0xF065 + x.val * 256) ∧
    ∀ s : State, ∃ t, exec (.ldVxMem x) s = .next t ∧ t = { s with v := t.v } ∧
      (∀ r : Reg, r ≤ x → s.i.toNat + r.val ≤ 0xFFF → t.v[r] = s.byteAt (s.i.toNat + r.val)) ∧
      (∀ r : Reg, ¬ (r ≤ x ∧ s.i.toNat + r.val ≤ 0xFFF) → t.v[r] = s.v[r])

/-- A byte stored by FX55 or FX33 is the byte a later fetch reads, each of the two bytes of a word on
its own: in every state whose memory the instruction left, at whatever pc, a byte of the word at pc
is the one stored there, or the one that stood there before if none was; and the very next fetch,
at the pc the instruction left, is one of these (R50). -/
def Obligations.StoredWordIsFetchedNext : Prop :=
  ∀ (i : Instr) (s t w : State), s.mem.wf = true → exec i s = .next t → w.mem = t.mem →
    (∀ b, Stores i s w.pc.toNat b → highByte w.fetchWord = b) ∧
    (∀ b, Stores i s (w.pc.toNat + 1) b → lowByte w.fetchWord = b) ∧
    ((∀ b, ¬ Stores i s w.pc.toNat b) → highByte w.fetchWord = s.byteAt w.pc.toNat) ∧
    ((∀ b, ¬ Stores i s (w.pc.toNat + 1) b) → lowByte w.fetchWord = s.byteAt (w.pc.toNat + 1)) ∧
    ((∃ a b, Stores i s a b) → t.pc = s.pc)

/-! ### Display (44_display) -/

/-- 00E0: every cell off, no flag, nothing else (R131). -/
def Obligations.ClearScreenBlanksEveryCell : Prop :=
  HasWord .cls 0x00E0 ∧
  ∀ s : State, ∃ t, exec .cls s = .next t ∧ t = { s with display := t.display } ∧
    ∀ y x, y < 32 → x < 64 → cellAt t.display y x = false

/-- DXYN: the start wraps and the body is clipped; each cell under a drawn 1 is flipped and every
other cell, and all other state but VF, is as before; VF is 1 exactly when a drawn 1 met a cell
that was on; SpriteReadOutOfRange, before any write, when a drawn row is beyond memory
(R132, R133; which rows are read is D6). -/
def Obligations.DrawXorsTheClippedSprite : Prop :=
  ∀ (x y : Reg) (n : BitVec 4), HasWord (.drw x y n) (0xD000 + x.val * 256 + y.val * 16 + n.toNat) ∧
    ∀ (s : State) (x0 y0 rows : Nat), x0 = s.v[x].toNat % 64 → y0 = s.v[y].toNat % 32 →
      rows = min n.toNat (32 - y0) →
      (0 < rows ∧ 0xFFF < s.i.toNat + rows - 1 →
        exec (.drw x y n) s = .next { s with fault := some .spriteReadOutOfRange }) ∧
      (¬ (0 < rows ∧ 0xFFF < s.i.toNat + rows - 1) → ∃ t, exec (.drw x y n) s = .next t ∧
        t = { s with v := s.v.set 15 t.v[15], display := t.display } ∧
        (∀ r c, r < 32 → c < 64 →
          (SpriteCovers s x0 y0 rows r c → cellAt t.display r c = !cellAt s.display r c) ∧
          (¬ SpriteCovers s x0 y0 rows r c → cellAt t.display r c = cellAt s.display r c)) ∧
        ((∃ r c, SpriteCovers s x0 y0 rows r c ∧ cellAt s.display r c = true) → t.v[15] = 1) ∧
        ((¬ ∃ r c, SpriteCovers s x0 y0 rows r c ∧ cellAt s.display r c = true) → t.v[15] = 0))

/-- Drawing the same sprite twice at the same place restores the display, and the second draw
reports a collision exactly when a drawn 1 met a cell that was off before the first; on cells that
were all off, exactly when the sprite has a drawn 1 (R132, R133). Corner case (f) of R132 says the
last for every display; the algorithm of R132 gives it for blank cells only (log 10). -/
def Obligations.DrawingTwiceRestoresTheDisplay : Prop :=
  ∀ (x y : Reg) (n : BitVec 4) (s t : State) (x0 y0 rows : Nat), x ≠ 15 → y ≠ 15 → s.fault = none →
    x0 = s.v[x].toNat % 64 → y0 = s.v[y].toNat % 32 → rows = min n.toNat (32 - y0) →
    exec (.drw x y n) s = .next t → t.fault = none →
    ∃ u, exec (.drw x y n) t = .next u ∧ u.display = s.display ∧
      (u.v[15] = 1 ↔ ∃ r c, SpriteCovers s x0 y0 rows r c ∧ cellAt s.display r c = false) ∧
      ((∀ r c, SpriteCovers s x0 y0 rows r c → cellAt s.display r c = false) →
        (u.v[15] = 1 ↔ ∃ r c, SpriteCovers s x0 y0 rows r c))

/-! ### Keypad and timers (45_keypad_timers) -/

/-- EX9E and EXA1: the key V[X] tested by level; KeyIndexOutOfRange when V[X] > 15 (R141, R142; the
fault is D8). -/
def Obligations.KeySkips : Prop :=
  ∀ x : Reg, HasWord (.skp x) (0xE09E + x.val * 256) ∧ HasWord (.sknp x) (0xE0A1 + x.val * 256) ∧
    (∀ s : State, 15 < s.v[x].toNat →
      exec (.skp x) s = .next { s with fault := some .keyIndexOutOfRange } ∧
      exec (.sknp x) s = .next { s with fault := some .keyIndexOutOfRange }) ∧
    (∀ (s : State) (k : Reg), s.v[x].toNat = k.val →
      exec (.skp x) s = .next { s with pc := if s.keypad[k] = true then s.pc + 2 else s.pc } ∧
      exec (.sknp x) s = .next { s with pc := if s.keypad[k] = true then s.pc else s.pc + 2 })

/-- FX0A: with no key down back to this instruction, so that the whole step changes IR and the slot
count only; otherwise V[X] is a key that is down, the only one where just one is, and the lowest
for the default parameter (R143; the choice among several is the parameter of log 4). -/
def Obligations.KeyWaitReportsAKeyThatIsDown : Prop :=
  ∀ x : Reg, HasWord (.ldVxK x) (0xF00A + x.val * 256) ∧
    (∀ s : State, (∀ k : Reg, s.keypad[k] = false) →
      exec (.ldVxK x) s = .next { s with pc := s.pc - 2 }) ∧
    (∀ s : State, s.InSlot → s.pc.toNat ≤ 0xFFE → decodeWord s.fetchWord = .ok (.ldVxK x) →
      (∀ k : Reg, s.keypad[k] = false) →
      step s = .next { s with ir := Fields.ofWord s.fetchWord, slot := s.slot + 1 }) ∧
    (∀ s : State, (∃ k : Reg, s.keypad[k] = true) → ∃ (k : Reg) (b : Byte), s.keypad[k] = true ∧
      b.toNat = k.val ∧ exec (.ldVxK x) s = .next { s with v := s.v.set x b } ∧
      (∀ j : Reg, (∀ l : Reg, s.keypad[l] = true ↔ l = j) → k = j) ∧
      (s.config.keyPick = [] → ∀ l : Reg, s.keypad[l] = true → k ≤ l))

/-- FX07, FX15, FX18: whole 8-bit values, nothing else changed (R144, R145, R146). -/
def Obligations.TimerAccess : Prop :=
  ∀ x : Reg, HasWord (.ldVxDt x) (0xF007 + x.val * 256) ∧ HasWord (.ldDtVx x) (0xF015 + x.val * 256) ∧
    HasWord (.ldStVx x) (0xF018 + x.val * 256) ∧
    ∀ s : State, exec (.ldVxDt x) s = .next { s with v := s.v.set x s.dt } ∧
      exec (.ldDtVx x) s = .next { s with dt := s.v[x] } ∧
      exec (.ldStVx x) s = .next { s with st := s.v[x] }

/-! ### Rules over the whole instruction set -/

/-- A general register changes only where the instruction's own rule names it as a destination or,
for VF, as its flag (R11). -/
def Obligations.RegistersChangeOnlyAsDestinationOrFlag : Prop :=
  ∀ (i : Instr) (s t : State) (r : Reg), exec i s = .next t → ¬ MayWriteReg i r → t.v[r] = s.v[r]

/-- Which instructions can change each unit of state: the general registers those of `MayWriteReg`;
pc, beyond its advance, those of `MayWritePc`; memory FX33 and FX55; the display 00E0
and DXYN; I ANNN, FX1E and FX29; the stack 2NNN and 00EE; a timer its own load; the draw count
CXNN; FAULT the six that can raise; and none the keypad, the run state, IR, the tick position,
the parameters or the inputs (R10 to R21). -/
def Obligations.EachUnitIsWrittenOnlyByItsInstructions : Prop :=
  ∀ (i : Instr) (s t : State), exec i s = .next t →
    (t.v ≠ s.v → ∃ r, MayWriteReg i r) ∧ (t.pc ≠ s.pc → MayWritePc i) ∧
    (t.mem ≠ s.mem → ∃ x, i = .ldB x ∨ i = .ldMemVx x) ∧
    (t.display ≠ s.display → i = .cls ∨ ∃ x y n, i = .drw x y n) ∧
    (t.i ≠ s.i → (∃ nnn, i = .ldI nnn) ∨ ∃ x, i = .addI x ∨ i = .ldF x) ∧
    (t.stack ≠ s.stack → ∃ nnn, i = .call nnn) ∧
    (t.sp ≠ s.sp → i = .ret ∨ ∃ nnn, i = .call nnn) ∧
    (t.dt ≠ s.dt → ∃ x, i = .ldDtVx x) ∧ (t.st ≠ s.st → ∃ x, i = .ldStVx x) ∧
    (t.draws ≠ s.draws → ∃ x nn, i = .rnd x nn) ∧
    (t.fault ≠ s.fault → i = .ret ∨ (∃ nnn, i = .call nnn) ∨ (∃ x y n, i = .drw x y n) ∨
      ∃ x, i = .ldB x ∨ i = .skp x ∨ i = .sknp x) ∧
    t.keypad = s.keypad ∧ t.runState = s.runState ∧ t.ir = s.ir ∧ t.slot = s.slot ∧
    t.config = s.config ∧ t.inputs = s.inputs

/-- No instruction depends on the position in the tick, IR, the run state or the inputs to come, and
none but FX18 has anything to do with the sound timer: with other values there, the same
instruction does the same (R19, R20, R165, R202). -/
def Obligations.InstructionsCannotReadTheClockOrTheSoundTimer : Prop :=
  ∀ (i : Instr) (s t : State), exec i s = .next t →
    (∀ (k : Nat) (f : Fields) (r : RunState) (es : List (List HostEvent)),
      exec i { s with slot := k, ir := f, runState := r, inputs := es } =
        .next { t with slot := k, ir := f, runState := r, inputs := es }) ∧
    (∀ b : Byte, (∀ x, i ≠ .ldStVx x) → exec i { s with st := b } = .next { t with st := b }) ∧
    (∀ (b : Byte) (x : Reg), i = .ldStVx x → exec i { s with st := b } = .next t)
end

