-- ==== Sys2Proof/Laws/Decode.lean ====
section
/-! SUPPORT. The fields of a word put together from its fields (30_encoding R61, R62). -/

namespace Sys2Proof

/-- The low part of a concatenation. -/
theorem extract_low {m n : Nat} (a : BitVec m) (b : BitVec n) : (a ++ b).extractLsb' 0 n = b := by
  ext i hi
  simp [BitVec.getLsbD_append, hi]

/-- The high part of a concatenation. -/
theorem extract_high {m n : Nat} (a : BitVec m) (b : BitVec n) : (a ++ b).extractLsb' n m = a := by
  apply BitVec.eq_of_getLsbD_eq
  intro i hi
  simp [BitVec.getLsbD_append, hi]

/-- A field that lies wholly in the low part of a concatenation. -/
theorem extract_in_low {m n : Nat} (a : BitVec m) (b : BitVec n) (s l : Nat) (h : s + l ≤ n) :
    (a ++ b).extractLsb' s l = b.extractLsb' s l := by
  ext i hi
  simp [BitVec.getLsbD_append, show s + i < n by omega]

@[simp] theorem regBits_toFin (r : Reg) : (regBits r).toFin = r := rfl

/-! ### The fields of the three formats (R62) -/

theorem familyOf_append (f : BitVec 4) (b : BitVec 12) : familyOf (f ++ b : Word) = f.toNat := by
  unfold familyOf
  rw [show ((f ++ b : Word).extractLsb' 12 4) = f from extract_high f b]

theorem familyOf_formatA (f : BitVec 4) (a : BitVec 12) :
    familyOf (formatA f a) = f.toNat := familyOf_append f a

theorem familyOf_formatI (f : BitVec 4) (x : Reg) (nn : Byte) :
    familyOf (formatI f x nn) = f.toNat := familyOf_append f _

theorem familyOf_formatR (f : BitVec 4) (x y : Reg) (n : BitVec 4) :
    familyOf (formatR f x y n) = f.toNat := familyOf_append f _

theorem nnn_formatA (f : BitVec 4) (a : BitVec 12) :
    (formatA f a).extractLsb' 0 12 = a := extract_low f a

theorem nn_formatI (f : BitVec 4) (x : Reg) (nn : Byte) :
    (formatI f x nn).extractLsb' 0 8 = nn := by
  rw [formatI, show ((f ++ (regBits x ++ nn) : Word).extractLsb' 0 8) =
    (regBits x ++ nn).extractLsb' 0 8 from extract_in_low f _ 0 8 (by omega)]
  exact extract_low _ _

theorem x_formatI (f : BitVec 4) (x : Reg) (nn : Byte) :
    (formatI f x nn).extractLsb' 8 4 = regBits x := by
  rw [formatI, show ((f ++ (regBits x ++ nn) : Word).extractLsb' 8 4) =
    (regBits x ++ nn).extractLsb' 8 4 from extract_in_low f _ 8 4 (by omega)]
  exact extract_high _ _

theorem x_formatR (f : BitVec 4) (x y : Reg) (n : BitVec 4) :
    (formatR f x y n).extractLsb' 8 4 = regBits x := by
  rw [formatR, show ((f ++ (regBits x ++ (regBits y ++ n)) : Word).extractLsb' 8 4) =
    (regBits x ++ (regBits y ++ n)).extractLsb' 8 4 from extract_in_low f _ 8 4 (by omega)]
  exact extract_high _ _

theorem y_formatR (f : BitVec 4) (x y : Reg) (n : BitVec 4) :
    (formatR f x y n).extractLsb' 4 4 = regBits y := by
  rw [formatR, show ((f ++ (regBits x ++ (regBits y ++ n)) : Word).extractLsb' 4 4) =
    (regBits x ++ (regBits y ++ n)).extractLsb' 4 4 from extract_in_low f _ 4 4 (by omega),
    show ((regBits x ++ (regBits y ++ n)).extractLsb' 4 4) = (regBits y ++ n).extractLsb' 4 4
      from extract_in_low _ _ 4 4 (by omega)]
  exact extract_high _ _

theorem n_formatR (f : BitVec 4) (x y : Reg) (n : BitVec 4) :
    (formatR f x y n).extractLsb' 0 4 = n := by
  rw [formatR, show ((f ++ (regBits x ++ (regBits y ++ n)) : Word).extractLsb' 0 4) =
    (regBits x ++ (regBits y ++ n)).extractLsb' 0 4 from extract_in_low f _ 0 4 (by omega),
    show ((regBits x ++ (regBits y ++ n)).extractLsb' 0 4) = (regBits y ++ n).extractLsb' 0 4
      from extract_in_low _ _ 0 4 (by omega)]
  exact extract_low _ _

/-! ### The formats as numbers (R62) -/

theorem append_toNat {m n : Nat} (a : BitVec m) (b : BitVec n) :
    (a ++ b).toNat = a.toNat * 2 ^ n + b.toNat := by
  rw [BitVec.toNat_append, ← Nat.shiftLeft_add_eq_or_of_lt b.isLt, Nat.shiftLeft_eq]

theorem regBits_toNat (r : Reg) : (regBits r).toNat = r.val := rfl

theorem formatA_toNat (f : BitVec 4) (a : BitVec 12) :
    (formatA f a).toNat = f.toNat * 4096 + a.toNat := append_toNat f a

theorem formatI_toNat (f : BitVec 4) (x : Reg) (nn : Byte) :
    (formatI f x nn).toNat = f.toNat * 4096 + x.val * 256 + nn.toNat := by
  have h : (formatI f x nn).toNat = f.toNat * 2 ^ (4 + 8) + (regBits x ++ nn).toNat :=
    append_toNat f (regBits x ++ nn)
  rw [h, append_toNat (regBits x) nn, regBits_toNat]
  omega

theorem formatR_toNat (f : BitVec 4) (x y : Reg) (n : BitVec 4) :
    (formatR f x y n).toNat = f.toNat * 4096 + x.val * 256 + y.val * 16 + n.toNat := by
  have h : (formatR f x y n).toNat =
      f.toNat * 2 ^ (4 + (4 + 4)) + (regBits x ++ (regBits y ++ n)).toNat :=
    append_toNat f (regBits x ++ (regBits y ++ n))
  rw [h, append_toNat (regBits x) (regBits y ++ n), append_toNat (regBits y) n, regBits_toNat,
    regBits_toNat]
  omega

/-- A field of a word as a number (R61). -/
theorem extract_toNat (w : Word) (s l : Nat) :
    (w.extractLsb' s l).toNat = w.toNat / 2 ^ s % 2 ^ l := by
  rw [BitVec.extractLsb'_toNat, Nat.shiftRight_eq_div_pow]

theorem familyOf_eq (w : Word) : familyOf w = w.toNat / 4096 := by
  have h := extract_toNat w 12 4
  have := w.isLt
  unfold familyOf
  omega

/-! ### The two bytes of a word (R42) -/

@[simp] theorem joinBytes_high_low (w : Word) : joinBytes (highByte w) (lowByte w) = w := by
  apply BitVec.eq_of_getLsbD_eq
  intro i hi
  rw [joinBytes, BitVec.getLsbD_append]
  split_ifs with h
  · simp [lowByte, h]
  · simp [highByte, show i - 8 < 8 by omega, show 8 + (i - 8) = i by omega]

@[simp] theorem highByte_joinBytes (hi lo : Byte) : highByte (joinBytes hi lo) = hi :=
  extract_high hi lo

@[simp] theorem lowByte_joinBytes (hi lo : Byte) : lowByte (joinBytes hi lo) = lo :=
  extract_low hi lo

end Sys2Proof
end

