-- ==== Sys2Proof/Laws/State.lean ====
section
/-! SUPPORT. The fields of State after each named update, one lemma per field per update, all true by
unfolding, so that no later proof unfolds a record update. -/

namespace Sys2Proof.Machine

variable (s : State)

/-! ### setV -/

@[simp] theorem State.setV_v (r : Reg) (b : Byte) : (s.setV r b).v = s.v.set r b := rfl
@[simp] theorem State.setV_i (r : Reg) (b : Byte) : (s.setV r b).i = s.i := rfl
@[simp] theorem State.setV_pc (r : Reg) (b : Byte) : (s.setV r b).pc = s.pc := rfl
@[simp] theorem State.setV_stack (r : Reg) (b : Byte) : (s.setV r b).stack = s.stack := rfl
@[simp] theorem State.setV_sp (r : Reg) (b : Byte) : (s.setV r b).sp = s.sp := rfl
@[simp] theorem State.setV_mem (r : Reg) (b : Byte) : (s.setV r b).mem = s.mem := rfl
@[simp] theorem State.setV_display (r : Reg) (b : Byte) : (s.setV r b).display = s.display := rfl
@[simp] theorem State.setV_dt (r : Reg) (b : Byte) : (s.setV r b).dt = s.dt := rfl
@[simp] theorem State.setV_st (r : Reg) (b : Byte) : (s.setV r b).st = s.st := rfl
@[simp] theorem State.setV_keypad (r : Reg) (b : Byte) : (s.setV r b).keypad = s.keypad := rfl
@[simp] theorem State.setV_runState (r : Reg) (b : Byte) : (s.setV r b).runState = s.runState := rfl
@[simp] theorem State.setV_ir (r : Reg) (b : Byte) : (s.setV r b).ir = s.ir := rfl
@[simp] theorem State.setV_fault (r : Reg) (b : Byte) : (s.setV r b).fault = s.fault := rfl
@[simp] theorem State.setV_slot (r : Reg) (b : Byte) : (s.setV r b).slot = s.slot := rfl
@[simp] theorem State.setV_config (r : Reg) (b : Byte) : (s.setV r b).config = s.config := rfl
@[simp] theorem State.setV_inputs (r : Reg) (b : Byte) : (s.setV r b).inputs = s.inputs := rfl
@[simp] theorem State.setV_draws (r : Reg) (b : Byte) : (s.setV r b).draws = s.draws := rfl

/-! ### setI -/

@[simp] theorem State.setI_v (a : Word) : (s.setI a).v = s.v := rfl
@[simp] theorem State.setI_i (a : Word) : (s.setI a).i = a := rfl
@[simp] theorem State.setI_pc (a : Word) : (s.setI a).pc = s.pc := rfl
@[simp] theorem State.setI_stack (a : Word) : (s.setI a).stack = s.stack := rfl
@[simp] theorem State.setI_sp (a : Word) : (s.setI a).sp = s.sp := rfl
@[simp] theorem State.setI_mem (a : Word) : (s.setI a).mem = s.mem := rfl
@[simp] theorem State.setI_display (a : Word) : (s.setI a).display = s.display := rfl
@[simp] theorem State.setI_dt (a : Word) : (s.setI a).dt = s.dt := rfl
@[simp] theorem State.setI_st (a : Word) : (s.setI a).st = s.st := rfl
@[simp] theorem State.setI_keypad (a : Word) : (s.setI a).keypad = s.keypad := rfl
@[simp] theorem State.setI_runState (a : Word) : (s.setI a).runState = s.runState := rfl
@[simp] theorem State.setI_ir (a : Word) : (s.setI a).ir = s.ir := rfl
@[simp] theorem State.setI_fault (a : Word) : (s.setI a).fault = s.fault := rfl
@[simp] theorem State.setI_slot (a : Word) : (s.setI a).slot = s.slot := rfl
@[simp] theorem State.setI_config (a : Word) : (s.setI a).config = s.config := rfl
@[simp] theorem State.setI_inputs (a : Word) : (s.setI a).inputs = s.inputs := rfl
@[simp] theorem State.setI_draws (a : Word) : (s.setI a).draws = s.draws := rfl

/-! ### setPc -/

@[simp] theorem State.setPc_v (a : Word) : (s.setPc a).v = s.v := rfl
@[simp] theorem State.setPc_i (a : Word) : (s.setPc a).i = s.i := rfl
@[simp] theorem State.setPc_pc (a : Word) : (s.setPc a).pc = a := rfl
@[simp] theorem State.setPc_stack (a : Word) : (s.setPc a).stack = s.stack := rfl
@[simp] theorem State.setPc_sp (a : Word) : (s.setPc a).sp = s.sp := rfl
@[simp] theorem State.setPc_mem (a : Word) : (s.setPc a).mem = s.mem := rfl
@[simp] theorem State.setPc_display (a : Word) : (s.setPc a).display = s.display := rfl
@[simp] theorem State.setPc_dt (a : Word) : (s.setPc a).dt = s.dt := rfl
@[simp] theorem State.setPc_st (a : Word) : (s.setPc a).st = s.st := rfl
@[simp] theorem State.setPc_keypad (a : Word) : (s.setPc a).keypad = s.keypad := rfl
@[simp] theorem State.setPc_runState (a : Word) : (s.setPc a).runState = s.runState := rfl
@[simp] theorem State.setPc_ir (a : Word) : (s.setPc a).ir = s.ir := rfl
@[simp] theorem State.setPc_fault (a : Word) : (s.setPc a).fault = s.fault := rfl
@[simp] theorem State.setPc_slot (a : Word) : (s.setPc a).slot = s.slot := rfl
@[simp] theorem State.setPc_config (a : Word) : (s.setPc a).config = s.config := rfl
@[simp] theorem State.setPc_inputs (a : Word) : (s.setPc a).inputs = s.inputs := rfl
@[simp] theorem State.setPc_draws (a : Word) : (s.setPc a).draws = s.draws := rfl

/-! ### setDt -/

@[simp] theorem State.setDt_v (b : Byte) : (s.setDt b).v = s.v := rfl
@[simp] theorem State.setDt_i (b : Byte) : (s.setDt b).i = s.i := rfl
@[simp] theorem State.setDt_pc (b : Byte) : (s.setDt b).pc = s.pc := rfl
@[simp] theorem State.setDt_stack (b : Byte) : (s.setDt b).stack = s.stack := rfl
@[simp] theorem State.setDt_sp (b : Byte) : (s.setDt b).sp = s.sp := rfl
@[simp] theorem State.setDt_mem (b : Byte) : (s.setDt b).mem = s.mem := rfl
@[simp] theorem State.setDt_display (b : Byte) : (s.setDt b).display = s.display := rfl
@[simp] theorem State.setDt_dt (b : Byte) : (s.setDt b).dt = b := rfl
@[simp] theorem State.setDt_st (b : Byte) : (s.setDt b).st = s.st := rfl
@[simp] theorem State.setDt_keypad (b : Byte) : (s.setDt b).keypad = s.keypad := rfl
@[simp] theorem State.setDt_runState (b : Byte) : (s.setDt b).runState = s.runState := rfl
@[simp] theorem State.setDt_ir (b : Byte) : (s.setDt b).ir = s.ir := rfl
@[simp] theorem State.setDt_fault (b : Byte) : (s.setDt b).fault = s.fault := rfl
@[simp] theorem State.setDt_slot (b : Byte) : (s.setDt b).slot = s.slot := rfl
@[simp] theorem State.setDt_config (b : Byte) : (s.setDt b).config = s.config := rfl
@[simp] theorem State.setDt_inputs (b : Byte) : (s.setDt b).inputs = s.inputs := rfl
@[simp] theorem State.setDt_draws (b : Byte) : (s.setDt b).draws = s.draws := rfl

/-! ### setSt -/

@[simp] theorem State.setSt_v (b : Byte) : (s.setSt b).v = s.v := rfl
@[simp] theorem State.setSt_i (b : Byte) : (s.setSt b).i = s.i := rfl
@[simp] theorem State.setSt_pc (b : Byte) : (s.setSt b).pc = s.pc := rfl
@[simp] theorem State.setSt_stack (b : Byte) : (s.setSt b).stack = s.stack := rfl
@[simp] theorem State.setSt_sp (b : Byte) : (s.setSt b).sp = s.sp := rfl
@[simp] theorem State.setSt_mem (b : Byte) : (s.setSt b).mem = s.mem := rfl
@[simp] theorem State.setSt_display (b : Byte) : (s.setSt b).display = s.display := rfl
@[simp] theorem State.setSt_dt (b : Byte) : (s.setSt b).dt = s.dt := rfl
@[simp] theorem State.setSt_st (b : Byte) : (s.setSt b).st = b := rfl
@[simp] theorem State.setSt_keypad (b : Byte) : (s.setSt b).keypad = s.keypad := rfl
@[simp] theorem State.setSt_runState (b : Byte) : (s.setSt b).runState = s.runState := rfl
@[simp] theorem State.setSt_ir (b : Byte) : (s.setSt b).ir = s.ir := rfl
@[simp] theorem State.setSt_fault (b : Byte) : (s.setSt b).fault = s.fault := rfl
@[simp] theorem State.setSt_slot (b : Byte) : (s.setSt b).slot = s.slot := rfl
@[simp] theorem State.setSt_config (b : Byte) : (s.setSt b).config = s.config := rfl
@[simp] theorem State.setSt_inputs (b : Byte) : (s.setSt b).inputs = s.inputs := rfl
@[simp] theorem State.setSt_draws (b : Byte) : (s.setSt b).draws = s.draws := rfl

/-! ### setMem -/

@[simp] theorem State.setMem_v (m : Memory) : (s.setMem m).v = s.v := rfl
@[simp] theorem State.setMem_i (m : Memory) : (s.setMem m).i = s.i := rfl
@[simp] theorem State.setMem_pc (m : Memory) : (s.setMem m).pc = s.pc := rfl
@[simp] theorem State.setMem_stack (m : Memory) : (s.setMem m).stack = s.stack := rfl
@[simp] theorem State.setMem_sp (m : Memory) : (s.setMem m).sp = s.sp := rfl
@[simp] theorem State.setMem_mem (m : Memory) : (s.setMem m).mem = m := rfl
@[simp] theorem State.setMem_display (m : Memory) : (s.setMem m).display = s.display := rfl
@[simp] theorem State.setMem_dt (m : Memory) : (s.setMem m).dt = s.dt := rfl
@[simp] theorem State.setMem_st (m : Memory) : (s.setMem m).st = s.st := rfl
@[simp] theorem State.setMem_keypad (m : Memory) : (s.setMem m).keypad = s.keypad := rfl
@[simp] theorem State.setMem_runState (m : Memory) : (s.setMem m).runState = s.runState := rfl
@[simp] theorem State.setMem_ir (m : Memory) : (s.setMem m).ir = s.ir := rfl
@[simp] theorem State.setMem_fault (m : Memory) : (s.setMem m).fault = s.fault := rfl
@[simp] theorem State.setMem_slot (m : Memory) : (s.setMem m).slot = s.slot := rfl
@[simp] theorem State.setMem_config (m : Memory) : (s.setMem m).config = s.config := rfl
@[simp] theorem State.setMem_inputs (m : Memory) : (s.setMem m).inputs = s.inputs := rfl
@[simp] theorem State.setMem_draws (m : Memory) : (s.setMem m).draws = s.draws := rfl

/-! ### setDisplay -/

@[simp] theorem State.setDisplay_v (d : Display) : (s.setDisplay d).v = s.v := rfl
@[simp] theorem State.setDisplay_i (d : Display) : (s.setDisplay d).i = s.i := rfl
@[simp] theorem State.setDisplay_pc (d : Display) : (s.setDisplay d).pc = s.pc := rfl
@[simp] theorem State.setDisplay_stack (d : Display) : (s.setDisplay d).stack = s.stack := rfl
@[simp] theorem State.setDisplay_sp (d : Display) : (s.setDisplay d).sp = s.sp := rfl
@[simp] theorem State.setDisplay_mem (d : Display) : (s.setDisplay d).mem = s.mem := rfl
@[simp] theorem State.setDisplay_display (d : Display) : (s.setDisplay d).display = d := rfl
@[simp] theorem State.setDisplay_dt (d : Display) : (s.setDisplay d).dt = s.dt := rfl
@[simp] theorem State.setDisplay_st (d : Display) : (s.setDisplay d).st = s.st := rfl
@[simp] theorem State.setDisplay_keypad (d : Display) : (s.setDisplay d).keypad = s.keypad := rfl
@[simp] theorem State.setDisplay_runState (d : Display) : (s.setDisplay d).runState = s.runState := rfl
@[simp] theorem State.setDisplay_ir (d : Display) : (s.setDisplay d).ir = s.ir := rfl
@[simp] theorem State.setDisplay_fault (d : Display) : (s.setDisplay d).fault = s.fault := rfl
@[simp] theorem State.setDisplay_slot (d : Display) : (s.setDisplay d).slot = s.slot := rfl
@[simp] theorem State.setDisplay_config (d : Display) : (s.setDisplay d).config = s.config := rfl
@[simp] theorem State.setDisplay_inputs (d : Display) : (s.setDisplay d).inputs = s.inputs := rfl
@[simp] theorem State.setDisplay_draws (d : Display) : (s.setDisplay d).draws = s.draws := rfl

/-! ### fetched -/

@[simp] theorem State.fetched_v (op : Word) : (s.fetched op).v = s.v := rfl
@[simp] theorem State.fetched_i (op : Word) : (s.fetched op).i = s.i := rfl
@[simp] theorem State.fetched_pc (op : Word) : (s.fetched op).pc = s.pc + 2 := rfl
@[simp] theorem State.fetched_stack (op : Word) : (s.fetched op).stack = s.stack := rfl
@[simp] theorem State.fetched_sp (op : Word) : (s.fetched op).sp = s.sp := rfl
@[simp] theorem State.fetched_mem (op : Word) : (s.fetched op).mem = s.mem := rfl
@[simp] theorem State.fetched_display (op : Word) : (s.fetched op).display = s.display := rfl
@[simp] theorem State.fetched_dt (op : Word) : (s.fetched op).dt = s.dt := rfl
@[simp] theorem State.fetched_st (op : Word) : (s.fetched op).st = s.st := rfl
@[simp] theorem State.fetched_keypad (op : Word) : (s.fetched op).keypad = s.keypad := rfl
@[simp] theorem State.fetched_runState (op : Word) : (s.fetched op).runState = s.runState := rfl
@[simp] theorem State.fetched_ir (op : Word) : (s.fetched op).ir = Fields.ofWord op := rfl
@[simp] theorem State.fetched_fault (op : Word) : (s.fetched op).fault = s.fault := rfl
@[simp] theorem State.fetched_slot (op : Word) : (s.fetched op).slot = s.slot := rfl
@[simp] theorem State.fetched_config (op : Word) : (s.fetched op).config = s.config := rfl
@[simp] theorem State.fetched_inputs (op : Word) : (s.fetched op).inputs = s.inputs := rfl
@[simp] theorem State.fetched_draws (op : Word) : (s.fetched op).draws = s.draws := rfl

/-! ### decrementTimers -/

@[simp] theorem State.decrementTimers_v : (s.decrementTimers).v = s.v := rfl
@[simp] theorem State.decrementTimers_i : (s.decrementTimers).i = s.i := rfl
@[simp] theorem State.decrementTimers_pc : (s.decrementTimers).pc = s.pc := rfl
@[simp] theorem State.decrementTimers_stack : (s.decrementTimers).stack = s.stack := rfl
@[simp] theorem State.decrementTimers_sp : (s.decrementTimers).sp = s.sp := rfl
@[simp] theorem State.decrementTimers_mem : (s.decrementTimers).mem = s.mem := rfl
@[simp] theorem State.decrementTimers_display : (s.decrementTimers).display = s.display := rfl
@[simp] theorem State.decrementTimers_dt : (s.decrementTimers).dt = decrementTimer s.dt := rfl
@[simp] theorem State.decrementTimers_st : (s.decrementTimers).st = decrementTimer s.st := rfl
@[simp] theorem State.decrementTimers_keypad : (s.decrementTimers).keypad = s.keypad := rfl
@[simp] theorem State.decrementTimers_runState : (s.decrementTimers).runState = s.runState := rfl
@[simp] theorem State.decrementTimers_ir : (s.decrementTimers).ir = s.ir := rfl
@[simp] theorem State.decrementTimers_fault : (s.decrementTimers).fault = s.fault := rfl
@[simp] theorem State.decrementTimers_slot : (s.decrementTimers).slot = s.slot := rfl
@[simp] theorem State.decrementTimers_config : (s.decrementTimers).config = s.config := rfl
@[simp] theorem State.decrementTimers_inputs : (s.decrementTimers).inputs = s.inputs := rfl
@[simp] theorem State.decrementTimers_draws : (s.decrementTimers).draws = s.draws := rfl

/-! ### Reading the registers after an update -/

theorem State.getV_eq (r : Reg) : s.getV r = s.v[r] := rfl

@[simp] theorem State.getV_setV_same (r : Reg) (b : Byte) : (s.setV r b).getV r = b := by
  simp [State.getV, State.setV]

/-- A register of a register file with one register written (R10). -/
theorem reg_set (v : Vector Byte 16) (r q : Reg) (b : Byte) :
    (v.set r b)[q] = if q = r then b else v[q] := by
  by_cases h : q = r
  · subst h; simp
  · have : r.val ≠ q.val := fun e => h (Fin.ext e.symm)
    simp [this, h]

theorem State.getV_setV_other (q r : Reg) (b : Byte) (h : q ≠ r) : (s.setV r b).getV q = s.getV q := by
  have hne : r.val ≠ q.val := fun e => h (Fin.ext e.symm)
  simp [State.getV, State.setV, hne]

@[simp] theorem State.getV_setI (q : Reg) (a : Word) : (s.setI a).getV q = s.getV q := rfl
@[simp] theorem State.getV_setPc (q : Reg) (a : Word) : (s.setPc a).getV q = s.getV q := rfl
@[simp] theorem State.getV_setDt (q : Reg) (b : Byte) : (s.setDt b).getV q = s.getV q := rfl
@[simp] theorem State.getV_setSt (q : Reg) (b : Byte) : (s.setSt b).getV q = s.getV q := rfl
@[simp] theorem State.getV_setMem (q : Reg) (m : Memory) : (s.setMem m).getV q = s.getV q := rfl
@[simp] theorem State.getV_setDisplay (q : Reg) (d : Display) :
    (s.setDisplay d).getV q = s.getV q := rfl
@[simp] theorem State.getV_fetched (q : Reg) (op : Word) : (s.fetched op).getV q = s.getV q := rfl

/-! ### Skips and the rewind -/

theorem State.skipIf_true : s.skipIf true = s.setPc (s.pc + 2) := rfl
theorem State.skipIf_false : s.skipIf false = s := rfl

/-- A skip writes pc and nothing else. -/
theorem State.skipIf_eq (c : Bool) :
    s.skipIf c = { s with pc := if c then s.pc + 2 else s.pc } := by
  cases c <;> rfl

theorem State.rewind_eq : s.rewind = { s with pc := s.pc - 2 } := rfl

end Sys2Proof.Machine
end

