-- ==== Sys2Proof/Laws/Display.lean ====
section
/-! SUPPORT. The display: reading a cell after a write, and what drawing a row and a sprite does to
every cell and to the collision (44_display R132, R133). -/

namespace Sys2Proof.Machine

theorem cellAt_setCell (d : Display) (y x y' x' : Nat) (b : Bool) (hy : y < 32) (hx : x < 64) :
    cellAt (setCell d y x b) y' x' = if y' = y ∧ x' = x then b else cellAt d y' x' := by
  unfold cellAt setCell
  have hyx : y < 32 ∧ x < 64 := ⟨hy, hx⟩
  simp only [dif_pos hyx]
  by_cases h : y' < 32 ∧ x' < 64
  · rw [dif_pos h, dif_pos h]
    by_cases hyy : y' = y
    · subst hyy
      by_cases hxx : x' = x
      · subst hxx; simp
      · simp [hxx, Ne.symm hxx]
    · simp [hyy, Ne.symm hyy]
  · rw [dif_neg h, dif_neg h, if_neg]
    rintro ⟨rfl, rfl⟩
    exact h ⟨hy, hx⟩

/-- The condition of the sprite fault as a number (R155). -/
theorem spriteOutOfRange_iff (s : State) (rows : Nat) :
    spriteOutOfRange s rows = true ↔ 0 < rows ∧ 0xFFF < s.i.toNat + rows - 1 := by
  unfold spriteOutOfRange State.ea topAddress
  rw [decide_eq_true_iff]
  omega

theorem cellAt_blank (y x : Nat) : cellAt blankDisplay y x = false := by
  unfold cellAt blankDisplay
  split_ifs <;> simp

/-- Displays whose cells agree are equal. -/
theorem display_ext (d e : Display) (h : ∀ y x, y < 32 → x < 64 → cellAt d y x = cellAt e y x) :
    d = e := by
  ext y hy x hx
  have := h y x hy hx
  simpa [cellAt, hy, hx] using this

/-- The first `n` columns of a sprite row: every cell (R132). -/
theorem drawColumns_cell (b : Byte) (y x0 n : Nat) (c : Display × Bool) (hy : y < 32)
    (hn : x0 + n ≤ 64) (y' x' : Nat) :
    cellAt ((List.range n).foldl (drawColumn b y x0) c).1 y' x' =
      (cellAt c.1 y' x' ^^
        (decide (y' = y ∧ x0 ≤ x' ∧ x' < x0 + n) && spriteBit b (x' - x0))) := by
  induction n with
  | zero =>
    rw [decide_eq_false (show ¬(y' = y ∧ x0 ≤ x' ∧ x' < x0 + 0) by omega)]
    simp
  | succ n ih =>
    have ih := ih (by omega)
    rw [List.range_succ, List.foldl_append, List.foldl_cons, List.foldl_nil]
    simp only [drawColumn]
    rw [cellAt_setCell _ _ _ _ _ _ hy (by omega)]
    by_cases h : y' = y ∧ x' = x0 + n
    · obtain ⟨rfl, rfl⟩ := h
      rw [if_pos ⟨rfl, rfl⟩, ih]
      simp
    · rw [if_neg h, ih]
      have : (y' = y ∧ x0 ≤ x' ∧ x' < x0 + n) ↔ (y' = y ∧ x0 ≤ x' ∧ x' < x0 + (n + 1)) := by omega
      simp only [this]

/-- The first `n` columns of a sprite row: the collision (R132). -/
theorem drawColumns_hit (b : Byte) (y x0 n : Nat) (c : Display × Bool) (hy : y < 32)
    (hn : x0 + n ≤ 64) :
    ((List.range n).foldl (drawColumn b y x0) c).2 = true ↔
      c.2 = true ∨ ∃ k, k < n ∧ spriteBit b k = true ∧ cellAt c.1 y (x0 + k) = true := by
  induction n with
  | zero => simp
  | succ n ih =>
    have hc := drawColumns_cell b y x0 n c hy (by omega) y (x0 + n)
    rw [List.range_succ, List.foldl_append, List.foldl_cons, List.foldl_nil]
    simp only [drawColumn, Bool.or_eq_true, Bool.and_eq_true, ih (by omega), hc]
    have hn' : ¬(x0 + n < x0 + n) := by omega
    simp only [hn', and_false, decide_false, Bool.false_and, Bool.xor_false]
    constructor
    · rintro ((h | ⟨k, hk, h⟩) | h)
      · exact .inl h
      · exact .inr ⟨k, by omega, h⟩
      · exact .inr ⟨n, by omega, h⟩
    · rintro (h | ⟨k, hk, h⟩)
      · exact .inl (.inl h)
      · rcases Nat.lt_succ_iff_lt_or_eq.1 hk with hk | rfl
        · exact .inl (.inr ⟨k, hk, h⟩)
        · exact .inr h

/-- Drawing a sprite: every cell is XORed with the clipped sprite laid over it (R133). -/
theorem drawSprite_cell (m : Memory) (base x0 y0 rows : Nat) (d : Display) (hx : x0 < 64)
    (hy : y0 + rows ≤ 32) (y x : Nat) :
    cellAt (drawSprite m base x0 y0 rows d).1 y x =
      (cellAt d y x ^^
        (decide (y0 ≤ y ∧ y < y0 + rows ∧ x0 ≤ x ∧ x < x0 + min 8 (64 - x0)) &&
          spriteBit (Memory.read m (base + (y - y0))) (x - x0))) := by
  unfold drawSprite
  induction rows with
  | zero =>
    rw [decide_eq_false
      (show ¬(y0 ≤ y ∧ y < y0 + 0 ∧ x0 ≤ x ∧ x < x0 + min 8 (64 - x0)) by omega)]
    simp
  | succ rows ih =>
    have ih := ih (by omega)
    rw [List.range_succ, List.foldl_append, List.foldl_cons, List.foldl_nil, drawRow,
      drawColumns_cell _ _ _ _ _ (by omega) (by omega), ih]
    by_cases h : y = y0 + rows
    · subst h
      have h2 : y0 + rows < y0 + (rows + 1) := by omega
      simp [h2]
    · have h1 : (y0 ≤ y ∧ y < y0 + rows ∧ x0 ≤ x ∧ x < x0 + min 8 (64 - x0)) ↔
          (y0 ≤ y ∧ y < y0 + (rows + 1) ∧ x0 ≤ x ∧ x < x0 + min 8 (64 - x0)) := by omega
      simp only [h, false_and, decide_false, Bool.false_and, Bool.xor_false, h1]

/-- Drawing a sprite collides exactly when a drawn 1 lies on a cell that was on (R133). -/
theorem drawSprite_hit (m : Memory) (base x0 y0 rows : Nat) (d : Display) (hx : x0 < 64)
    (hy : y0 + rows ≤ 32) :
    (drawSprite m base x0 y0 rows d).2 = true ↔
      ∃ r k, r < rows ∧ k < min 8 (64 - x0) ∧
        spriteBit (Memory.read m (base + r)) k = true ∧ cellAt d (y0 + r) (x0 + k) = true := by
  induction rows with
  | zero => simp [drawSprite]
  | succ rows ih =>
    have ih := ih (by omega)
    have hc := fun k => drawSprite_cell m base x0 y0 rows d hx (by omega) (y0 + rows) (x0 + k)
    unfold drawSprite at ih hc ⊢
    rw [List.range_succ, List.foldl_append, List.foldl_cons, List.foldl_nil, drawRow,
      drawColumns_hit _ _ _ _ _ (by omega) (by omega), ih]
    have h1 : ¬(y0 + rows < y0 + rows) := by omega
    simp only [hc, h1, false_and, and_false, decide_false, Bool.false_and, Bool.xor_false]
    constructor
    · rintro (⟨r, k, hr, h⟩ | ⟨k, hk, h⟩)
      · exact ⟨r, k, by omega, h⟩
      · exact ⟨rows, k, by omega, hk, h⟩
    · rintro ⟨r, k, hr, h⟩
      rcases Nat.lt_succ_iff_lt_or_eq.1 hr with hr | rfl
      · exact .inl ⟨r, k, hr, h⟩
      · exact .inr ⟨k, h⟩

end Sys2Proof.Machine
end

