-- ==== Sys2Proof/Laws/Flags.lean ====
section
/-! SUPPORT. What each flag value is, as a number or a condition. -/

namespace Sys2Proof.Machine

theorem flagOf_eq (c : Bool) : flagOf c = if c = true then 1 else 0 := rfl

theorem flagOf_eq_one (c : Bool) : flagOf c = 1 ↔ c = true := by
  cases c <;> simp [flagOf]

/-- R107. -/
theorem carryFlag_eq (a b : Byte) : carryFlag a b = if 255 < a.toNat + b.toNat then 1 else 0 := by
  simp [carryFlag, flagOf]

/-- R108, R110. -/
theorem noBorrowFlag_eq (m s : Byte) : noBorrowFlag m s = if s.toNat ≤ m.toNat then 1 else 0 := by
  simp [noBorrowFlag, flagOf]

/-- R109. -/
theorem shiftRightFlag_toNat (a : Byte) : (shiftRightFlag a).toNat = a.toNat % 2 := by
  simp [shiftRightFlag, Nat.and_one_is_mod]

/-- R111. -/
theorem shiftLeftFlag_toNat (a : Byte) : (shiftLeftFlag a).toNat = a.toNat / 128 := by
  have := a.isLt
  simp [shiftLeftFlag, Nat.and_one_is_mod, Nat.shiftRight_eq_div_pow]
  omega

end Sys2Proof.Machine
end

