-- ==== Sys2Proof/Laws/HostInterface.lean ====
section
/-! SUPPORT. What the host's events and the two ends of a tick can change (60_exceptions R164 to R174). -/

namespace Sys2Proof.Machine

/-- An event writes the keypad and the run state only (R172 to R174). -/
theorem apply_frame (s : State) (e : HostEvent) :
    HostEvent.apply s e =
      { s with keypad := (HostEvent.apply s e).keypad, runState := (HostEvent.apply s e).runState } := by
  unfold HostEvent.apply
  split_ifs
  · cases e <;> rfl
  · rfl

/-- Events without effect: after a fault or after QUIT (R171). -/
theorem apply_unheeded (s : State) (e : HostEvent) (h : s.heedsHost = false) :
    HostEvent.apply s e = s := by
  simp [HostEvent.apply, h]

/-- Events that are not heeded change nothing, however many (R171). -/
theorem applyAll_unheeded (es : List HostEvent) (s : State) (h : s.heedsHost = false) :
    es.foldl HostEvent.apply s = s := by
  induction es with
  | nil => rfl
  | cons e es ih => rw [List.foldl_cons, apply_unheeded s e h, ih]

theorem applyAll_frame (es : List HostEvent) (s : State) :
    es.foldl HostEvent.apply s =
      { s with
        keypad := (es.foldl HostEvent.apply s).keypad
        runState := (es.foldl HostEvent.apply s).runState } := by
  induction es generalizing s with
  | nil => rfl
  | cons e es ih =>
    rw [List.foldl_cons, ih, apply_frame s e]

/-- The yield point writes keypad and run state, takes one list of inputs, and restarts the slot
count; nothing else (R166, R171). -/
theorem yieldPoint_frame (s : State) :
    s.yieldPoint =
      { s with
        keypad := s.yieldPoint.keypad
        runState := s.yieldPoint.runState
        inputs := s.inputs.tail
        slot := 0 } := by
  unfold State.yieldPoint
  rw [applyAll_frame]

/-- The end of a RUNNING tick writes the timers beside what the yield point writes (R166). -/
theorem endTick_frame (s : State) :
    s.endTick =
      { s with
        dt := decrementTimer s.dt
        st := decrementTimer s.st
        keypad := s.endTick.keypad
        runState := s.endTick.runState
        inputs := s.inputs.tail
        slot := 0 } := by
  unfold State.endTick
  rw [yieldPoint_frame]
  rfl

@[simp] theorem yieldPoint_fault (s : State) : s.yieldPoint.fault = s.fault := by
  rw [yieldPoint_frame]

@[simp] theorem endTick_fault (s : State) : s.endTick.fault = s.fault := by
  rw [endTick_frame]

/-- A decremented timer as a number: one lower, never below 0 (R164). -/
theorem decrementTimer_toNat (t : Byte) : (decrementTimer t).toNat = t.toNat - 1 := by
  unfold decrementTimer
  split_ifs with h
  · simp [h]
  · have : t.toNat ≠ 0 := fun e => h (by simpa [BitVec.toNat_eq] using e)
    rw [BitVec.toNat_sub]
    have := t.isLt
    simp
    omega

end Sys2Proof.Machine
end

