-- ==== Sys2Proof/Laws/Memory.lean ====
section
/-! SUPPORT. Memory: read after write, the canonical form, and that equal memories are equal data. -/

namespace Sys2Proof.Machine

/-! ### Unfolding once -/

theorem Memory.read_nil (a : Nat) : Memory.read [] a = Memory.resetByte a := rfl

theorem Memory.read_cons (k : Nat) (c : Byte) (m : Memory) (a : Nat) :
    Memory.read ((k, c) :: m) a = if a = k then c else Memory.read m a := rfl

theorem Memory.wf_nil : Memory.wf [] = true := rfl

theorem Memory.wf_cons (k : Nat) (c : Byte) (m : Memory) :
    Memory.wf ((k, c) :: m) = true ↔
      (∀ p ∈ m, k < p.1) ∧ k ≤ topAddress ∧ c ≠ Memory.resetByte k ∧ Memory.wf m = true := by
  simp only [Memory.wf, List.pairwise_cons, List.all_cons, Bool.and_eq_true, decide_eq_true_eq]
  tauto

/-- An address below every listed one reads as its reset byte. -/
theorem Memory.read_below (m : Memory) (a : Nat) (h : ∀ p ∈ m, a < p.1) :
    Memory.read m a = Memory.resetByte a := by
  induction m with
  | nil => rfl
  | cons p m ih =>
    obtain ⟨k, c⟩ := p
    have hk : a < k := h (k, c) (by simp)
    rw [Memory.read_cons, if_neg (by omega), ih fun q hq => h q (by simp [hq])]

/-! ### Read after write -/

theorem Memory.read_write_other (m : Memory) (a x : Nat) (b : Byte) (hx : x ≠ a) :
    Memory.read (Memory.write m a b) x = Memory.read m x := by
  induction m with
  | nil => by_cases hb : b = Memory.resetByte a <;> simp [Memory.write, hb, Memory.read_cons, hx]
  | cons p m ih =>
    obtain ⟨k, c⟩ := p
    unfold Memory.write
    split_ifs <;> simp_all [Memory.read_cons]

theorem Memory.read_write_same (m : Memory) (a : Nat) (b : Byte) (hm : m.wf = true) :
    Memory.read (Memory.write m a b) a = b := by
  induction m with
  | nil => by_cases hb : b = Memory.resetByte a <;> simp [Memory.write, hb, Memory.read]
  | cons p m ih =>
    obtain ⟨k, c⟩ := p
    obtain ⟨hlt, -, -, hwf⟩ := (Memory.wf_cons k c m).1 hm
    unfold Memory.write
    split_ifs with h1 h2 h3 h4
    · rw [Memory.read_cons, if_neg (by omega), h2]
      exact Memory.read_below m a fun q hq => lt_trans h1 (hlt q hq)
    · simp [Memory.read_cons]
    · subst h3
      rw [Memory.read_below m a hlt, h4]
    · simp [Memory.read_cons, h3]
    · rw [Memory.read_cons, if_neg h3, ih hwf]

/-- Reading any address after a write. -/
theorem Memory.read_write (m : Memory) (a x : Nat) (b : Byte) (hm : m.wf = true) :
    Memory.read (Memory.write m a b) x = if x = a then b else Memory.read m x := by
  split_ifs with h
  · rw [h, Memory.read_write_same m a b hm]
  · exact Memory.read_write_other m a x b h

/-! ### The canonical form -/

/-- Every address listed after a write was listed before or is the one written. -/
theorem Memory.mem_write (m : Memory) (a : Nat) (b : Byte) (p : Host.Cell)
    (hp : p ∈ Memory.write m a b) : p.1 = a ∨ p ∈ m := by
  induction m with
  | nil =>
    unfold Memory.write at hp
    split_ifs at hp <;> simp_all
  | cons q m ih =>
    obtain ⟨k, c⟩ := q
    unfold Memory.write at hp
    split_ifs at hp <;> simp_all
    all_goals
      rcases hp with rfl | hp
      · simp
      · first
        | exact (ih hp).imp id Or.inr
        | simp [hp]

theorem Memory.write_wf (m : Memory) (a : Nat) (b : Byte) (hm : m.wf = true)
    (ha : a ≤ topAddress) : (Memory.write m a b).wf = true := by
  induction m with
  | nil =>
    unfold Memory.write
    split_ifs with hb
    · rfl
    · exact (Memory.wf_cons a b []).2 ⟨by simp, ha, hb, rfl⟩
  | cons p m ih =>
    obtain ⟨k, c⟩ := p
    obtain ⟨hlt, hk, hc, hwf⟩ := (Memory.wf_cons k c m).1 hm
    unfold Memory.write
    split_ifs with h1 h2 h3 h4
    · exact hm
    · refine (Memory.wf_cons a b _).2 ⟨?_, ha, h2, hm⟩
      intro q hq
      rcases List.mem_cons.1 hq with rfl | hq
      · exact h1
      · exact lt_trans h1 (hlt q hq)
    · exact hwf
    · exact (Memory.wf_cons k b m).2 ⟨hlt, hk, h3 ▸ h4, hwf⟩
    · refine (Memory.wf_cons k c _).2 ⟨?_, hk, hc, ih hwf⟩
      intro q hq
      rcases Memory.mem_write m a b q hq with h | h
      · omega
      · exact hlt q h

/-- Two memories in canonical form that read alike everywhere are the same list. -/
theorem Memory.ext_of_read (m n : Memory) (hm : m.wf = true) (hn : n.wf = true)
    (h : ∀ a, Memory.read m a = Memory.read n a) : m = n := by
  induction m generalizing n with
  | nil =>
    cases n with
    | nil => rfl
    | cons q n =>
      obtain ⟨k, c⟩ := q
      obtain ⟨-, -, hc, -⟩ := (Memory.wf_cons k c n).1 hn
      have := h k
      simp [Memory.read_cons, Memory.read_nil] at this
      exact absurd this.symm hc
  | cons p m ih =>
    obtain ⟨k, c⟩ := p
    obtain ⟨hlt, -, hc, hwf⟩ := (Memory.wf_cons k c m).1 hm
    cases n with
    | nil =>
      have := h k
      simp [Memory.read_cons, Memory.read_nil] at this
      exact absurd this hc
    | cons q n =>
      obtain ⟨j, d⟩ := q
      obtain ⟨hlt', -, hd, hwf'⟩ := (Memory.wf_cons j d n).1 hn
      have hkj : k = j := by
        rcases lt_trichotomy k j with hlt1 | heq | hgt
        · have := h k
          rw [Memory.read_cons, if_pos rfl, Memory.read_cons, if_neg (by omega),
            Memory.read_below n k fun q hq => lt_trans hlt1 (hlt' q hq)] at this
          exact absurd this hc
        · exact heq
        · have := h j
          rw [Memory.read_cons, if_neg (by omega), Memory.read_cons, if_pos rfl,
            Memory.read_below m j fun q hq => lt_trans hgt (hlt q hq)] at this
          exact absurd this.symm hd
      subst hkj
      have hcd : c = d := by simpa [Memory.read_cons] using h k
      subst hcd
      congr 1
      refine ih n hwf hwf' fun a => ?_
      by_cases ha : a = k
      · subst ha
        rw [Memory.read_below m a hlt, Memory.read_below n a hlt']
      · simpa [Memory.read_cons, ha] using h a

/-! ### Consecutive bytes -/

theorem Memory.writeBytes_wf (bs : List Byte) (m : Memory) (a : Nat) (hm : m.wf = true)
    (ha : a + bs.length ≤ topAddress + 1) : (Memory.writeBytes m a bs).wf = true := by
  induction bs generalizing m a with
  | nil => exact hm
  | cons b bs ih =>
    simp only [List.length_cons] at ha
    exact ih _ _ (Memory.write_wf m a b hm (by omega)) (by omega)

/-- What every address reads as after consecutive bytes are written. -/
theorem Memory.read_writeBytes (bs : List Byte) (m : Memory) (a x : Nat) (hm : m.wf = true)
    (ha : a + bs.length ≤ topAddress + 1) :
    Memory.read (Memory.writeBytes m a bs) x =
      if a ≤ x ∧ x < a + bs.length then bs.getD (x - a) 0 else Memory.read m x := by
  induction bs generalizing m a with
  | nil => simp [Memory.writeBytes, show ¬(a ≤ x ∧ x < a) by omega]
  | cons b bs ih =>
    simp only [List.length_cons] at ha ⊢
    rw [Memory.writeBytes, ih _ _ (Memory.write_wf m a b hm (by omega)) (by omega),
      Memory.read_write m a x b hm]
    by_cases hx : x = a
    · subst hx
      simp
    · by_cases hr : a + 1 ≤ x ∧ x < a + 1 + bs.length
      · rw [if_pos hr, if_pos (by omega), show x - a = (x - (a + 1)) + 1 by omega]
        simp
      · rw [if_neg hr, if_neg hx, if_neg (by omega)]

/-- Outside the bytes written nothing changes, whatever the memory's form. -/
theorem Memory.read_writeBytes_outside (bs : List Byte) (m : Memory) (a x : Nat)
    (h : x < a ∨ a + bs.length ≤ x) :
    Memory.read (Memory.writeBytes m a bs) x = Memory.read m x := by
  induction bs generalizing m a with
  | nil => rfl
  | cons b bs ih =>
    simp only [List.length_cons] at h
    rw [Memory.writeBytes, ih _ _ (by omega), Memory.read_write_other m a x b (by omega)]

/-- The reset image is in canonical form (R191). -/
theorem Memory.image_wf (font : Vector Byte 80) (rom : List Byte) (h : Rom.check rom = true) :
    (Memory.image font rom).wf = true := by
  have hl : rom.length ≤ 3584 := of_decide_eq_true h
  refine Memory.writeBytes_wf _ _ _ (Memory.writeBytes_wf _ _ _ Memory.wf_nil ?_) ?_
  · simp [topAddress]
  · simp only [topAddress]
    omega

theorem reset_memory_wf : State.reset.mem.wf = true := rfl

end Sys2Proof.Machine
end

