-- ==== Sys2Proof/Laws/Operands.lean ====
section
/-! SUPPORT. What each shared operand operation does, said once: register groups (FX55, FX65), keys,
push and pop, raising and the end of a step. -/

namespace Sys2Proof.Machine

/-! ### Register groups -/

theorem mem_allRegs (r : Reg) : r ∈ allRegs := by
  revert r; decide

theorem mem_regsUpTo (x r : Reg) : r ∈ regsUpTo x ↔ r ≤ x := by
  simp [regsUpTo, mem_allRegs]

/-- The elements stored from any list of registers leave every other address alone. -/
theorem foldl_storeReg_outside (s : State) (rs : List Reg) (m : Memory) (a : Nat)
    (h : ∀ r ∈ rs, s.ea r.val ≤ topAddress → a ≠ s.ea r.val) :
    Memory.read (rs.foldl (storeReg s) m) a = Memory.read m a := by
  induction rs generalizing m with
  | nil => rfl
  | cons r rs ih =>
    rw [List.foldl_cons, ih _ fun q hq => h q (by simp [hq])]
    unfold storeReg
    split_ifs with hr
    · exact Memory.read_write_other _ _ _ _ (h r (by simp) hr)
    · rfl

theorem foldl_storeReg_wf (s : State) (rs : List Reg) (m : Memory) (hm : m.wf = true) :
    (rs.foldl (storeReg s) m).wf = true := by
  induction rs generalizing m with
  | nil => exact hm
  | cons r rs ih =>
    refine ih _ ?_
    unfold storeReg
    split_ifs with hr
    · exact Memory.write_wf _ _ _ hm hr
    · exact hm

/-- Each register of the list stands at its own address afterwards, when that address is in
memory. -/
theorem foldl_storeReg_at (s : State) (rs : List Reg) (m : Memory) (hm : m.wf = true) (r : Reg)
    (hr : r ∈ rs) (ha : s.ea r.val ≤ topAddress) :
    Memory.read (rs.foldl (storeReg s) m) (s.ea r.val) = s.getV r := by
  induction rs generalizing m with
  | nil => simp at hr
  | cons q rs ih =>
    rw [List.foldl_cons]
    have hw : (storeReg s m q).wf = true := foldl_storeReg_wf s [q] m hm
    by_cases hmem : r ∈ rs
    · exact ih _ hw hmem
    · have hq : r = q := by simpa [hmem] using hr
      subst hq
      rw [foldl_storeReg_outside]
      · simp only [storeReg, if_pos ha]
        exact Memory.read_write_same _ _ _ hm
      · intro p hp _ heq
        have : p = r := Fin.ext (by simpa [State.ea] using heq.symm)
        exact hmem (this ▸ hp)

theorem storeRegs_wf (s : State) (x : Reg) (hm : s.mem.wf = true) : (storeRegs s x).wf = true :=
  foldl_storeReg_wf s _ _ hm

/-- FX55, a stored element (R125). -/
theorem storeRegs_at (s : State) (x r : Reg) (hm : s.mem.wf = true) (hr : r ≤ x)
    (ha : s.ea r.val ≤ topAddress) : Memory.read (storeRegs s x) (s.ea r.val) = s.getV r :=
  foldl_storeReg_at s _ _ hm r ((mem_regsUpTo x r).2 hr) ha

/-- FX55, every other address (R125). -/
theorem storeRegs_outside (s : State) (x : Reg) (a : Nat)
    (h : ∀ r : Reg, r ≤ x → s.ea r.val ≤ topAddress → a ≠ s.ea r.val) :
    Memory.read (storeRegs s x) a = Memory.read s.mem a :=
  foldl_storeReg_outside s _ _ _ fun r hr => h r ((mem_regsUpTo x r).1 hr)

/-- One element of FX65 writes V[r] only. -/
theorem loadReg_frame (s : State) (r : Reg) : loadReg s r = { s with v := (loadReg s r).v } := by
  unfold loadReg
  split_ifs <;> rfl

/-- What FX65's elements read does not change while they run. -/
theorem foldl_loadReg_frame (s : State) (rs : List Reg) :
    rs.foldl loadReg s = { s with v := (rs.foldl loadReg s).v } := by
  induction rs generalizing s with
  | nil => rfl
  | cons r rs ih =>
    rw [List.foldl_cons, ih (loadReg s r), loadReg_frame s r]

theorem foldl_loadReg_getV (rs : List Reg) (s : State) (q : Reg) :
    (rs.foldl loadReg s).getV q =
      if q ∈ rs ∧ s.ea q.val ≤ topAddress then s.byteAt (s.ea q.val) else s.getV q := by
  induction rs generalizing s with
  | nil => simp
  | cons r rs ih =>
    have hea : ∀ k, (loadReg s r).ea k = s.ea k := fun k => by
      rw [loadReg_frame]; rfl
    have hby : ∀ a, (loadReg s r).byteAt a = s.byteAt a := fun a => by
      rw [loadReg_frame]; rfl
    rw [List.foldl_cons, ih, hea, hby]
    by_cases hq : q = r
    · subst hq
      by_cases ha : s.ea q.val ≤ topAddress
      · simp [loadReg, ha]
      · simp [loadReg, ha]
    · have : (loadReg s r).getV q = s.getV q := by
        unfold loadReg
        split_ifs
        · exact State.getV_setV_other s q r _ hq
        · rfl
      simp [this, hq]

/-- FX65 writes general registers only (R126). -/
theorem loadRegs_frame (s : State) (x : Reg) : loadRegs s x = { s with v := (loadRegs s x).v } :=
  foldl_loadReg_frame s _

/-- FX65, every register (R126). -/
theorem loadRegs_getV (s : State) (x q : Reg) :
    (loadRegs s x).getV q =
      if q ≤ x ∧ s.ea q.val ≤ topAddress then s.byteAt (s.ea q.val) else s.getV q := by
  unfold loadRegs
  simp only [foldl_loadReg_getV, mem_regsUpTo]

/-! ### Keys -/

theorem keyOf_eq_none (b : Byte) : keyOf b = none ↔ 15 < b.toNat := by
  unfold keyOf
  split_ifs <;> simp <;> omega

theorem keyOf_eq_some (b : Byte) (k : Reg) : keyOf b = some k ↔ b.toNat = k.val := by
  unfold keyOf
  split_ifs with h
  · simp [Fin.ext_iff]
  · simp
    omega

theorem mem_downKeys (kp : Keypad) (k : Reg) : k ∈ downKeys kp ↔ kp[k] = true := by
  simp [downKeys, mem_allRegs]

/-- No key is reported exactly when none is down (R143). -/
theorem pick_eq_none (c : Config) (kp : Keypad) : c.pick kp = none ↔ ∀ k : Reg, kp[k] = false := by
  have key : downKeys kp = [] ↔ ∀ k : Reg, kp[k] = false := by
    rw [List.eq_nil_iff_forall_not_mem]
    exact forall_congr' fun k => by rw [mem_downKeys]; simp
  rw [← key]
  unfold Config.pick
  split
  · simp_all
  · split
    · split_ifs <;> simp_all
    · simp_all

/-- A key that is reported is down (R143: all that the hardware guarantees). -/
theorem pick_isDown (c : Config) (kp : Keypad) (k : Reg) (h : c.pick kp = some k) :
    kp[k] = true := by
  unfold Config.pick at h
  split at h
  · simp at h
  · rename_i lowest rest hd
    have hl : kp[lowest] = true := (mem_downKeys kp lowest).1 (by rw [hd]; simp)
    split at h
    · split_ifs at h with he <;> simp_all
    · simp_all

/-! ### The call stack -/

/-- A push with 16 entries held is none. -/
theorem push_full (s : State) (w : Word) (h : s.sp = 16) : s.push w = none := by
  simp [State.push, h]

/-- A push onto `k` entries writes slot `k` (R14). -/
theorem push_at (s : State) (w : Word) (k : Fin 16) (h : s.sp = k.castSucc) :
    s.push w = some { s with stack := s.stack.set k w, sp := k.succ } := by
  have hk : s.sp.val = k.val := by simp [h]
  simp [State.push, hk, Fin.succ]

/-- A pop with no entry held is none. -/
theorem pop_empty (s : State) (h : s.sp = 0) : s.pop = none := by
  simp [State.pop, h]

/-- A push in every state: refused by a full stack, or onto the k entries held (R14). -/
theorem push_cases (s : State) (w : Word) :
    (s.sp = 16 ∧ s.push w = none) ∨ ∃ k : Fin 16, s.sp = k.castSucc ∧
      s.push w = some { s with stack := s.stack.set k w, sp := k.succ } := by
  rcases Fin.eq_castSucc_or_eq_last s.sp with ⟨k, hk⟩ | h
  · exact .inr ⟨k, hk, push_at s w k hk⟩
  · exact .inl ⟨h, push_full s w h⟩

/-- A pop from `k + 1` entries reads slot `k` (R14). -/
theorem pop_at (s : State) (k : Fin 16) (h : s.sp = k.succ) :
    s.pop = some (s.stack[k], { s with sp := k.castSucc }) := by
  have hk : s.sp.val = k.val + 1 := by simp [h]
  simp [State.pop, hk, Fin.castSucc, Fin.castAdd, Fin.castLE]

/-- A pop in every state: refused by an empty stack, or from the k + 1 entries held (R14). -/
theorem pop_cases (s : State) :
    (s.sp = 0 ∧ s.pop = none) ∨ ∃ k : Fin 16, s.sp = k.succ ∧
      s.pop = some (s.stack[k], { s with sp := k.castSucc }) := by
  rcases Fin.eq_zero_or_eq_succ s.sp with h | ⟨k, hk⟩
  · exact .inl ⟨h, pop_empty s h⟩
  · exact .inr ⟨k, hk, pop_at s k hk⟩

/-! ### The end of a step -/

theorem commit_of_none (before after : State) (h : after.fault = none) :
    before.commit after = { after with slot := after.slot + 1 } := by
  simp [State.commit, h]

theorem commit_of_some (before after : State) (f : Fault) (h : after.fault = some f) :
    before.commit after = { before with fault := some f } := by
  simp [State.commit, h]

@[simp] theorem commitResult_next (before after : State) :
    before.commitResult (.next after) = .next (before.commit after) := rfl

@[simp] theorem commit_fault (before after : State) : (before.commit after).fault = after.fault := by
  unfold State.commit
  split <;> simp_all

end Sys2Proof.Machine
end

