-- ==== Sys2Proof/Laws/PerInstr.lean ====
section
/-! SUPPORT. The family OwnRow: the word an instruction is encoded to is selected by the instruction's own
row of the opcode map (30_encoding R64). -/

namespace Sys2Proof.Laws.OwnRow

/-- The row of the instruction exists and selects its word. -/
def Statement (i : Instr) : Prop :=
  ∃ r, opcodeTable[rowIndex i]? = some r ∧ r.selects (encode i) = true

/-! ### What the masks of R64 leave of each format -/

theorem and_ones4 (a : BitVec 4) : a &&& 0xF#4 = a := BitVec.and_allOnes

theorem and_ones8 (a : BitVec 8) : a &&& 0xFF#8 = a := BitVec.and_allOnes

theorem and_append {m n : Nat} (a c : BitVec m) (b d : BitVec n) :
    (a ++ b) &&& (c ++ d) = (a &&& c) ++ (b &&& d) := BitVec.and_append

/-- Format A under 0xF000. -/
theorem masked_formatA (f : BitVec 4) (a : BitVec 12) :
    formatA f a &&& 0xF000 = formatA f 0 := by
  have h := and_append f 0xF#4 a 0x000#12
  rw [and_ones4, BitVec.and_zero] at h
  exact h

/-- Format I under 0xF000. -/
theorem masked_formatI (f : BitVec 4) (x : Reg) (nn : Byte) :
    formatI f x nn &&& 0xF000 = formatI f 0 0 := by
  have h := and_append f 0xF#4 (regBits x ++ nn) (0x0#4 ++ 0x00#8)
  rw [and_append (regBits x) 0x0#4 nn 0x00#8, and_ones4, BitVec.and_zero, BitVec.and_zero] at h
  exact h

/-- Format U under 0xF0FF. -/
theorem masked_formatU (f : BitVec 4) (x : Reg) (nn : Byte) :
    formatI f x nn &&& 0xF0FF = formatI f 0 nn := by
  have h := and_append f 0xF#4 (regBits x ++ nn) (0x0#4 ++ 0xFF#8)
  rw [and_append (regBits x) 0x0#4 nn 0xFF#8, and_ones4, BitVec.and_zero, and_ones8] at h
  exact h

/-- Format R under 0xF00F. -/
theorem masked_formatR (f : BitVec 4) (x y : Reg) (n : BitVec 4) :
    formatR f x y n &&& 0xF00F = formatR f 0 0 n := by
  have h := and_append f 0xF#4 (regBits x ++ (regBits y ++ n)) (0x0#4 ++ (0x0#4 ++ 0xF#4))
  rw [and_append (regBits x) 0x0#4 (regBits y ++ n) (0x0#4 ++ 0xF#4),
    and_append (regBits y) 0x0#4 n 0xF#4, and_ones4, and_ones4, BitVec.and_zero, BitVec.and_zero] at h
  exact h

/-- Format D under 0xF000. -/
theorem masked_formatD (f : BitVec 4) (x y : Reg) (n : BitVec 4) :
    formatR f x y n &&& 0xF000 = formatR f 0 0 0 := by
  have h := and_append f 0xF#4 (regBits x ++ (regBits y ++ n)) (0x0#4 ++ (0x0#4 ++ 0x0#4))
  rw [and_append (regBits x) 0x0#4 (regBits y ++ n) (0x0#4 ++ 0x0#4),
    and_append (regBits y) 0x0#4 n 0x0#4, and_ones4, BitVec.and_zero, BitVec.and_zero,
    BitVec.and_zero] at h
  exact h

/-! ### One lemma per constructor -/

theorem cls : Statement .cls := ⟨_, rfl, rfl⟩

theorem ret : Statement .ret := ⟨_, rfl, rfl⟩

theorem jp (nnn : BitVec 12) : Statement (.jp nnn) := ⟨_, rfl, beq_iff_eq.2 (masked_formatA _ nnn)⟩

theorem call (nnn : BitVec 12) : Statement (.call nnn) := ⟨_, rfl, beq_iff_eq.2 (masked_formatA _ nnn)⟩

theorem seImm (x : Reg) (nn : Byte) : Statement (.seImm x nn) := ⟨_, rfl, beq_iff_eq.2 (masked_formatI _ x nn)⟩

theorem sneImm (x : Reg) (nn : Byte) : Statement (.sneImm x nn) := ⟨_, rfl, beq_iff_eq.2 (masked_formatI _ x nn)⟩

theorem seReg (x : Reg) (y : Reg) : Statement (.seReg x y) := ⟨_, rfl, beq_iff_eq.2 (masked_formatR _ x y _)⟩

theorem ldImm (x : Reg) (nn : Byte) : Statement (.ldImm x nn) := ⟨_, rfl, beq_iff_eq.2 (masked_formatI _ x nn)⟩

theorem addImm (x : Reg) (nn : Byte) : Statement (.addImm x nn) := ⟨_, rfl, beq_iff_eq.2 (masked_formatI _ x nn)⟩

theorem ldReg (x : Reg) (y : Reg) : Statement (.ldReg x y) := ⟨_, rfl, beq_iff_eq.2 (masked_formatR _ x y _)⟩

theorem orReg (x : Reg) (y : Reg) : Statement (.orReg x y) := ⟨_, rfl, beq_iff_eq.2 (masked_formatR _ x y _)⟩

theorem andReg (x : Reg) (y : Reg) : Statement (.andReg x y) := ⟨_, rfl, beq_iff_eq.2 (masked_formatR _ x y _)⟩

theorem xorReg (x : Reg) (y : Reg) : Statement (.xorReg x y) := ⟨_, rfl, beq_iff_eq.2 (masked_formatR _ x y _)⟩

theorem addReg (x : Reg) (y : Reg) : Statement (.addReg x y) := ⟨_, rfl, beq_iff_eq.2 (masked_formatR _ x y _)⟩

theorem sub (x : Reg) (y : Reg) : Statement (.sub x y) := ⟨_, rfl, beq_iff_eq.2 (masked_formatR _ x y _)⟩

theorem shr (x : Reg) (y : Reg) : Statement (.shr x y) := ⟨_, rfl, beq_iff_eq.2 (masked_formatR _ x y _)⟩

theorem subn (x : Reg) (y : Reg) : Statement (.subn x y) := ⟨_, rfl, beq_iff_eq.2 (masked_formatR _ x y _)⟩

theorem shl (x : Reg) (y : Reg) : Statement (.shl x y) := ⟨_, rfl, beq_iff_eq.2 (masked_formatR _ x y _)⟩

theorem sneReg (x : Reg) (y : Reg) : Statement (.sneReg x y) := ⟨_, rfl, beq_iff_eq.2 (masked_formatR _ x y _)⟩

theorem ldI (nnn : BitVec 12) : Statement (.ldI nnn) := ⟨_, rfl, beq_iff_eq.2 (masked_formatA _ nnn)⟩

theorem jpV0 (nnn : BitVec 12) : Statement (.jpV0 nnn) := ⟨_, rfl, beq_iff_eq.2 (masked_formatA _ nnn)⟩

theorem rnd (x : Reg) (nn : Byte) : Statement (.rnd x nn) := ⟨_, rfl, beq_iff_eq.2 (masked_formatI _ x nn)⟩

theorem drw (x : Reg) (y : Reg) (n : BitVec 4) : Statement (.drw x y n) := ⟨_, rfl, beq_iff_eq.2 (masked_formatD _ x y n)⟩

theorem skp (x : Reg) : Statement (.skp x) := ⟨_, rfl, beq_iff_eq.2 (masked_formatU _ x _)⟩

theorem sknp (x : Reg) : Statement (.sknp x) := ⟨_, rfl, beq_iff_eq.2 (masked_formatU _ x _)⟩

theorem ldVxK (x : Reg) : Statement (.ldVxK x) := ⟨_, rfl, beq_iff_eq.2 (masked_formatU _ x _)⟩

theorem ldVxDt (x : Reg) : Statement (.ldVxDt x) := ⟨_, rfl, beq_iff_eq.2 (masked_formatU _ x _)⟩

theorem ldDtVx (x : Reg) : Statement (.ldDtVx x) := ⟨_, rfl, beq_iff_eq.2 (masked_formatU _ x _)⟩

theorem ldStVx (x : Reg) : Statement (.ldStVx x) := ⟨_, rfl, beq_iff_eq.2 (masked_formatU _ x _)⟩

theorem addI (x : Reg) : Statement (.addI x) := ⟨_, rfl, beq_iff_eq.2 (masked_formatU _ x _)⟩

theorem ldF (x : Reg) : Statement (.ldF x) := ⟨_, rfl, beq_iff_eq.2 (masked_formatU _ x _)⟩

theorem ldB (x : Reg) : Statement (.ldB x) := ⟨_, rfl, beq_iff_eq.2 (masked_formatU _ x _)⟩

theorem ldMemVx (x : Reg) : Statement (.ldMemVx x) := ⟨_, rfl, beq_iff_eq.2 (masked_formatU _ x _)⟩

theorem ldVxMem (x : Reg) : Statement (.ldVxMem x) := ⟨_, rfl, beq_iff_eq.2 (masked_formatU _ x _)⟩

end Sys2Proof.Laws.OwnRow
end

