-- ==== Sys2Proof/Laws/Step.lean ====
section
/-! SUPPORT. Everything one step can do, said once (40_fetch_decode_step R80, R87; 60_exceptions R166). -/

namespace Sys2Proof.Machine

/-- The condition of a fetch as a number (R81). -/
theorem fetchable_iff (s : State) : s.fetchable = true ↔ s.pc.toNat ≤ 0xFFE := by
  unfold State.fetchable topAddress
  rw [decide_eq_true_iff]
  omega

theorem fetchable_eq_false (s : State) : s.fetchable = false ↔ 0xFFE < s.pc.toNat := by
  rw [← Bool.not_eq_true, fetchable_iff]
  omega

theorem step_halted (s : State) (f : Fault) (h : s.fault = some f) : step s = .fault f := by
  simp [step, h]

theorem step_quit (s : State) (h : s.fault = none) (hr : s.runState = .quit) : step s = .next s := by
  simp [step, h, hr]

theorem step_paused (s : State) (h : s.fault = none) (hr : s.runState = .paused) :
    step s = .next s.yieldPoint := by
  simp [step, h, hr]

theorem step_inSlot (s : State) (h : s.InSlot) : step s = instrStep s := by
  obtain ⟨h1, h2, h3⟩ := h
  simp [step, h1, h2, h3]

theorem step_tickEnd (s : State) (h : s.fault = none) (hr : s.runState = .running)
    (hs : s.config.ipt ≤ s.slot) : step s = .next s.endTick := by
  simp [step, h, hr, Nat.not_lt.2 hs]

theorem instrStep_beyond (s : State) (h : s.fetchable = false) :
    instrStep s = .next { s with fault := some .fetchOutOfRange } := by
  simp [instrStep, h, raise]

theorem instrStep_known (s : State) (i : Instr) (h : s.fetchable = true)
    (hd : decodeWord s.fetchWord = .ok i) :
    instrStep s = s.commitResult (exec i (s.fetched s.fetchWord)) := by
  simp [instrStep, h, hd]

theorem instrStep_unknown (s : State) (e : DecodeReject) (h : s.fetchable = true)
    (hd : decodeWord s.fetchWord = .error e) :
    instrStep s = .next (s.commit (s.fetched s.fetchWord)) := by
  simp [instrStep, h, hd, execUnknown]

/-- How a step came to its next state: the one inversion later proofs cite. -/
theorem step_cases (s t : State) (h : step s = .next t) :
    s.fault = none ∧
    ((s.runState = .quit ∧ t = s) ∨
     (s.runState = .paused ∧ t = s.yieldPoint) ∨
     (s.runState = .running ∧ s.config.ipt ≤ s.slot ∧ t = s.endTick) ∨
     (s.InSlot ∧ s.fetchable = false ∧ t = { s with fault := some .fetchOutOfRange }) ∨
     (s.InSlot ∧ s.fetchable = true ∧ ∃ i u, decodeWord s.fetchWord = .ok i ∧
       exec i (s.fetched s.fetchWord) = .next u ∧ t = s.commit u) ∨
     (s.InSlot ∧ s.fetchable = true ∧ ∃ e, decodeWord s.fetchWord = .error e ∧
       t = s.commit (s.fetched s.fetchWord))) := by
  cases hf : s.fault with
  | some f => rw [step_halted s f hf] at h; cases h
  | none =>
    refine ⟨rfl, ?_⟩
    have hrun : s.runState = .quit ∨ s.runState = .paused ∨ s.runState = .running := by
      cases s.runState <;> simp
    rcases hrun with hr | hr | hr
    · rw [step_quit s hf hr] at h; cases h; exact .inl ⟨hr, rfl⟩
    · rw [step_paused s hf hr] at h; cases h; exact .inr (.inl ⟨hr, rfl⟩)
    · by_cases hs : s.slot < s.config.ipt
      · have hslot : s.InSlot := ⟨hf, hr, hs⟩
        rw [step_inSlot s hslot] at h
        cases hp : s.fetchable with
        | false =>
          rw [instrStep_beyond s hp] at h
          cases h
          exact .inr (.inr (.inr (.inl ⟨hslot, rfl, rfl⟩)))
        | true =>
          cases hd : decodeWord s.fetchWord with
          | error e =>
            rw [instrStep_unknown s e hp hd] at h
            cases h
            exact .inr (.inr (.inr (.inr (.inr ⟨hslot, rfl, e, rfl, rfl⟩))))
          | ok i =>
            rw [instrStep_known s i hp hd] at h
            cases hx : exec i (s.fetched s.fetchWord) with
            | next u =>
              rw [hx, commitResult_next] at h
              cases h
              exact .inr (.inr (.inr (.inr (.inl ⟨hslot, rfl, i, u, rfl, hx, rfl⟩))))
            | fault f => rw [hx] at h; cases h
            | refused r => rw [hx] at h; cases h
      · rw [step_tickEnd s hf hr (Nat.not_lt.1 hs)] at h
        cases h
        exact .inr (.inr (.inl ⟨hr, Nat.not_lt.1 hs, rfl⟩))

end Sys2Proof.Machine
end

