-- ==== Sys2Proof/Laws/WellFormed.lean ====
section
/-! SUPPORT. Every term of `Instr` is well formed. -/

namespace Sys2Proof

theorem Operands.check_iff (o : Operands) :
    o.check = true ↔ o.x < 16 ∧ o.y < 16 ∧ o.n < 16 ∧ o.nn < 256 ∧ o.nnn < 4096 := by
  simp [Operands.check, and_assoc]

theorem Instr.wellFormed_all (i : Instr) : i.wellFormed = true := by
  rw [Instr.wellFormed, Operands.check_iff]
  cases i <;> simp only [Instr.operands] <;> refine ⟨?_, ?_, ?_, ?_, ?_⟩ <;>
    first | decide | exact Fin.isLt _

end Sys2Proof
end

