-- ==== Sys2Proof/Tests/Slice0.lean ====
section
/-! SUPPORT. Tests of one step each, expected values from the source's worked examples (T) and the
vectors (V) of spec/95_test_vectors.md; the smoke tests of WellFormed; and, for every obligation
with hypotheses, a witness that meets them. -/

namespace Sys2Proof.Tests

open Sys2Proof Sys2Proof.Machine Sys2Proof.Claims

set_option Elab.async false

/-! ### Helpers -/

/-- The result is a next state with the property. -/
def answers (r : Result) (p : State → Bool) : Bool :=
  match r with
  | .next t => p t
  | .fault _ => false
  | .refused _ => false

theorem exists_next {r : Result} {p : State → Prop} [DecidablePred p]
    (h : answers r (fun t => decide (p t)) = true) : ∃ t, r = .next t ∧ p t := by
  cases r with
  | next t => exact ⟨t, rfl, of_decide_eq_true h⟩
  | fault f => cases h
  | refused f => cases h

/-- One step on the word from the state gives a next state with the property. -/
def runs (s : State) (w : Nat) (p : State → Bool) : Bool := answers (step (s.withFetchWord 16 w)) p

/-- The reset state with two registers written, the second last. -/
def rig (x : Reg) (a : Byte) (y : Reg) (b : Byte) : State := (State.reset.setV x a).setV y b

/-- A state with bytes stored at an address, which `I` holds too. -/
def withBytes (s : State) (a : Nat) (bs : List Byte) : State :=
  { s with i := BitVec.ofNat 16 a, mem := Memory.writeBytes s.mem a bs }

/-- A state with one key down. -/
def withKey (s : State) (k : Reg) : State := { s with keypad := s.keypad.set k true }

/-- The cells of one display row that are on. -/
def onCells (s : State) (y : Nat) : List Nat := (List.range 64).filter fun x => cellAt s.display y x

/-- k steps as a function. -/
def runN : Nat → State → Option State
  | 0, s => some s
  | k + 1, s =>
    match step s with
    | .next t => runN k t
    | .fault _ => none
    | .refused _ => none

theorem runs_of_runN (k : Nat) (s t : State) (h : runN k s = some t) : State.Runs k s t := by
  induction k generalizing s with
  | zero => exact Option.some.inj h
  | succ k ih =>
    unfold runN at h
    split at h
    · rename_i u hu; exact ⟨u, hu, ih u h⟩
    · cases h
    · cases h

theorem exists_runs (k : Nat) (s : State) (p : State → Prop) [DecidablePred p]
    (h : (runN k s).any (fun t => decide (p t)) = true) : ∃ t, State.Runs k s t ∧ p t := by
  cases hr : runN k s with
  | none => rw [hr] at h; cases h
  | some t => rw [hr] at h; exact ⟨t, runs_of_runN k s t hr, of_decide_eq_true h⟩

/-! ### WellFormed -/

theorem test_operand_x_refused : Operands.check ⟨16, 0, 0, 0, 0⟩ = false := by decide
theorem test_operand_y_refused : Operands.check ⟨0, 16, 0, 0, 0⟩ = false := by decide
theorem test_operand_n_refused : Operands.check ⟨0, 0, 16, 0, 0⟩ = false := by decide
theorem test_operand_nn_refused : Operands.check ⟨0, 0, 0, 256, 0⟩ = false := by decide
theorem test_operand_nnn_refused : Operands.check ⟨0, 0, 0, 0, 4096⟩ = false := by decide
theorem test_operands_accepted : Operands.check ⟨15, 15, 15, 255, 4095⟩ = true := by decide
theorem test_rom_refused : Rom.check (List.replicate 3585 0) = false :=
  decide_eq_false (by rw [List.length_replicate]; decide)
theorem test_rom_accepted : Rom.check (List.replicate 3584 0) = true :=
  decide_eq_true (by rw [List.length_replicate]; decide)

/-! ### Decode: a word written out from R64 for every constructor -/

theorem test_decode_family_0 : decodeWord 0x00E0 = .ok .cls ∧ decodeWord 0x00EE = .ok .ret := by decide
theorem test_decode_control : decodeWord 0x1ABC = .ok (.jp 0xABC) ∧ decodeWord 0x2300 = .ok (.call 0x300) ∧
    decodeWord 0x3A05 = .ok (.seImm 10 0x05) ∧ decodeWord 0x4BFE = .ok (.sneImm 11 0xFE) ∧
    decodeWord 0x5120 = .ok (.seReg 1 2) ∧ decodeWord 0x9340 = .ok (.sneReg 3 4) ∧
    decodeWord 0xBFFF = .ok (.jpV0 0xFFF) := by decide
theorem test_decode_immediate : decodeWord 0x6FAB = .ok (.ldImm 15 0xAB) ∧
    decodeWord 0x7A01 = .ok (.addImm 10 0x01) ∧ decodeWord 0xC30F = .ok (.rnd 3 0x0F) := by decide
theorem test_decode_family_8 : decodeWord 0x8120 = .ok (.ldReg 1 2) ∧
    decodeWord 0x8341 = .ok (.orReg 3 4) ∧ decodeWord 0x8562 = .ok (.andReg 5 6) ∧
    decodeWord 0x8783 = .ok (.xorReg 7 8) ∧ decodeWord 0x89A4 = .ok (.addReg 9 10) ∧
    decodeWord 0x8BC5 = .ok (.sub 11 12) ∧ decodeWord 0x8DE6 = .ok (.shr 13 14) ∧
    decodeWord 0x8F07 = .ok (.subn 15 0) ∧ decodeWord 0x812E = .ok (.shl 1 2) := by decide
theorem test_decode_index_display : decodeWord 0xA2F0 = .ok (.ldI 0x2F0) ∧
    decodeWord 0xD125 = .ok (.drw 1 2 5) ∧ decodeWord 0xF41E = .ok (.addI 4) ∧
    decodeWord 0xF529 = .ok (.ldF 5) ∧ decodeWord 0xF633 = .ok (.ldB 6) ∧
    decodeWord 0xF755 = .ok (.ldMemVx 7) ∧ decodeWord 0xF865 = .ok (.ldVxMem 8) := by decide
theorem test_decode_keys_timers : decodeWord 0xE19E = .ok (.skp 1) ∧ decodeWord 0xE2A1 = .ok (.sknp 2) ∧
    decodeWord 0xF30A = .ok (.ldVxK 3) ∧ decodeWord 0xF407 = .ok (.ldVxDt 4) ∧
    decodeWord 0xF515 = .ok (.ldDtVx 5) ∧ decodeWord 0xF618 = .ok (.ldStVx 6) := by decide
/-- V2 to V5: words no row selects. -/
theorem test_decode_unknown :
    [0x0000, 0x5121, 0x9121, 0x01E0, 0x8128, 0x812F, 0xE100, 0xF100, 0xF1FF].all
      (fun w => decide (decodeWord w = .error (.unknownOpcode w))) = true := by decide
theorem test_decode_too_short : decodeBytes [0x12] = .error (.tooShort 1) := by decide
/-- The fields of 0xD125 (T part 1, R61). -/
theorem test_fields : Fields.ofWord 0xD125 = ⟨0xD125, 0x125, 0x25, 5, 1, 2⟩ := by decide
theorem test_decode_table_word : decodeTableWord 16 0xD125 = some (.drw 1 2 5) := by decide

/-! ### Fetch and unknown opcodes -/

/-- V10. -/
theorem test_unknown_writes_ir : runs State.reset 0x5AB1
    (fun t => decide (t.pc = 0x202 ∧ t.ir = ⟨0x5AB1, 0xAB1, 0xB1, 1, 0xA, 0xB⟩)) = true := by decide +kernel
/-- V6. -/
theorem test_last_fetch : runs { State.reset with pc := 0xFFE } 0x0000 (fun t => decide (t.pc = 0x1000)) = true := by
  decide +kernel
/-- V7. -/
theorem test_fetch_beyond : answers (step { State.reset with pc := 0xFFF })
    (fun t => decide (t.fault = some .fetchOutOfRange ∧ t.pc = 0xFFF ∧ t.slot = 0)) = true := by decide +kernel
/-- V9: an odd pc is legal. -/
theorem test_odd_pc : runs { State.reset with pc := 0x203 } 0x6A55
    (fun t => decide (t.v[10] = 0x55 ∧ t.pc = 0x205)) = true := by decide +kernel

/-! ### Control flow -/

/-- V20. -/
theorem test_jp : runs State.reset 0x1ABC (fun t => decide (t.pc = 0xABC)) = true := by decide +kernel
/-- V24. -/
theorem test_call : runs { State.reset with sp := 15 } 0x2300
    (fun t => decide (t.pc = 0x300 ∧ t.sp = 16 ∧ t.stack[15] = 0x202)) = true := by decide +kernel
/-- V25. -/
theorem test_call_full : runs { State.reset with sp := 16 } 0x2300
    (fun t => decide (t.fault = some .stackOverflow ∧ t.pc = 0x200 ∧ t.sp = 16)) = true := by decide +kernel
/-- V27. -/
theorem test_ret : runs { State.reset with sp := 2, stack := (State.reset.stack.set 0 0x202).set 1 0x456 } 0x00EE
    (fun t => decide (t.pc = 0x456 ∧ t.sp = 1)) = true := by decide +kernel
/-- V26. -/
theorem test_ret_empty : runs State.reset 0x00EE
    (fun t => decide (t.fault = some .stackUnderflow ∧ t.pc = 0x200)) = true := by decide +kernel
/-- V28, V29. -/
theorem test_se_imm : runs (State.reset.setV 10 5) 0x3A05 (fun t => decide (t.pc = 0x204)) = true ∧
    runs (State.reset.setV 10 6) 0x3A05 (fun t => decide (t.pc = 0x202)) = true := by decide +kernel
/-- V30, V31. -/
theorem test_sne_imm : runs (State.reset.setV 10 5) 0x4A05 (fun t => decide (t.pc = 0x202)) = true ∧
    runs (State.reset.setV 10 6) 0x4A05 (fun t => decide (t.pc = 0x204)) = true := by decide +kernel
/-- V32, V33. -/
theorem test_se_reg : runs (rig 1 9 2 9) 0x5120 (fun t => decide (t.pc = 0x204)) = true ∧
    runs (rig 1 9 2 8) 0x5120 (fun t => decide (t.pc = 0x202)) = true := by decide +kernel
/-- V35, V36. -/
theorem test_sne_reg : runs (rig 1 9 2 9) 0x9120 (fun t => decide (t.pc = 0x202)) = true ∧
    runs (rig 1 9 2 8) 0x9120 (fun t => decide (t.pc = 0x204)) = true := by decide +kernel
/-- V39: the sum is not masked. -/
theorem test_jp_v0 : runs (State.reset.setV 0 0xFF) 0xBFFF (fun t => decide (t.pc = 0x10FE)) = true := by
  decide +kernel

/-! ### Arithmetic and logic -/

/-- V50. -/
theorem test_ld_imm : runs State.reset 0x6FAB (fun t => decide (t.v[15] = 0xAB)) = true := by decide +kernel
/-- V52: no flag. -/
theorem test_add_imm_wraps : runs (rig 3 0xFF 15 5) 0x7301 (fun t => decide (t.v[3] = 0 ∧ t.v[15] = 5)) = true := by
  decide +kernel
/-- V54. -/
theorem test_ld_reg : runs (rig 1 1 2 0x7E) 0x8120 (fun t => decide (t.v[1] = 0x7E)) = true := by decide +kernel
/-- V56: no flag. -/
theorem test_or : runs ((rig 1 0xF0 2 0x0F).setV 15 7) 0x8121
    (fun t => decide (t.v[1] = 0xFF ∧ t.v[15] = 7)) = true := by decide +kernel
/-- V57. -/
theorem test_and : runs (rig 1 0xF0 2 0x3C) 0x8122 (fun t => decide (t.v[1] = 0x30)) = true := by decide +kernel
/-- V58. -/
theorem test_xor : runs (rig 1 0xF0 2 0x3C) 0x8123 (fun t => decide (t.v[1] = 0xCC)) = true := by decide +kernel
/-- T2. -/
theorem test_add : runs (rig 1 200 2 100) 0x8124 (fun t => decide (t.v[1] = 44 ∧ t.v[15] = 1)) = true := by
  decide +kernel
/-- V65 and V66: VF among the operands. -/
theorem test_add_vf : runs (rig 15 200 1 100) 0x8F14 (fun t => decide (t.v[15] = 1)) = true ∧
    runs (rig 1 0xFF 15 2) 0x81F4 (fun t => decide (t.v[1] = 1 ∧ t.v[15] = 1)) = true := by decide +kernel
/-- V68, V69. -/
theorem test_sub : runs (rig 1 5 2 7) 0x8125 (fun t => decide (t.v[1] = 0xFE ∧ t.v[15] = 0)) = true ∧
    runs (rig 1 7 2 7) 0x8125 (fun t => decide (t.v[1] = 0 ∧ t.v[15] = 1)) = true := by decide +kernel
/-- V72 and V75: VF among the operands. -/
theorem test_sub_vf : runs (rig 15 9 1 3) 0x8F15 (fun t => decide (t.v[15] = 0xFE)) = true ∧
    runs (rig 1 5 15 3) 0x81F5 (fun t => decide (t.v[1] = 4 ∧ t.v[15] = 1)) = true := by decide +kernel
/-- V80: Y is ignored. -/
theorem test_shr : runs (rig 1 4 2 0xFF) 0x8126
    (fun t => decide (t.v[1] = 2 ∧ t.v[2] = 0xFF ∧ t.v[15] = 0)) = true := by decide +kernel
/-- V81. -/
theorem test_shr_vf : runs (State.reset.setV 15 0xFF) 0x8F06 (fun t => decide (t.v[15] = 0)) = true := by
  decide +kernel
/-- V83. -/
theorem test_subn : runs (rig 1 7 2 5) 0x8127 (fun t => decide (t.v[1] = 0xFE ∧ t.v[15] = 0)) = true := by
  decide +kernel
/-- V85 and V87: VF among the operands. -/
theorem test_subn_vf : runs (rig 15 2 1 9) 0x8F17 (fun t => decide (t.v[15] = 8)) = true ∧
    runs (rig 1 5 15 9) 0x81F7 (fun t => decide (t.v[1] = 0xFC ∧ t.v[15] = 1)) = true := by decide +kernel
/-- V90. -/
theorem test_shl : runs (State.reset.setV 1 0x81) 0x810E (fun t => decide (t.v[1] = 2 ∧ t.v[15] = 1)) = true := by
  decide +kernel
/-- V93. -/
theorem test_shl_vf : runs (State.reset.setV 15 0x80) 0x8F0E (fun t => decide (t.v[15] = 2)) = true := by
  decide +kernel
/-- V96: whatever the byte drawn, nothing outside NN. -/
theorem test_rnd_mask_zero : answers (execRnd 3 0x00 (State.reset.setV 3 0x55)) (fun t => decide (t.draws = 1)) = true ∧
    ∀ r : Byte, r &&& 0x00 = 0 := ⟨rfl, by decide +kernel⟩

/-! ### Index register and memory -/

/-- V101. -/
theorem test_ld_i : runs State.reset 0xAFFF (fun t => decide (t.i = 0xFFF)) = true := by decide +kernel
/-- V103: wraps, no flag. -/
theorem test_add_i : runs { State.reset.setV 2 1 with i := 0xFFF } 0xF21E
    (fun t => decide (t.i = 0 ∧ t.v[15] = 0)) = true := by decide +kernel
/-- V106: no reduction to a nibble. -/
theorem test_ld_f : runs (State.reset.setV 0 0xFF) 0xF029 (fun t => decide (t.i = 0x4FB)) = true := by decide +kernel
/-- V108: the last three addresses. -/
theorem test_bcd : runs { State.reset.setV 3 255 with i := 0xFFD } 0xF333
    (fun t => decide (t.byteAt 0xFFD = 2 ∧ t.byteAt 0xFFE = 5 ∧ t.byteAt 0xFFF = 5 ∧ t.i = 0xFFD)) = true := by
  decide +kernel
/-- V110. -/
theorem test_bcd_beyond : runs { State.reset with i := 0xFFE } 0xF333
    (fun t => decide (t.fault = some .bcdWriteOutOfRange ∧ t.pc = 0x200 ∧ t.byteAt 0xFFE = 0)) = true := by
  decide +kernel
/-- V113: two elements dropped, no wrap to the font. -/
theorem test_store : runs { (rig 0 1 1 2).setV 2 3 with i := 0xFFE } 0xF355
    (fun t => decide (t.fault = none ∧ t.byteAt 0xFFE = 1 ∧ t.byteAt 0xFFF = 2 ∧ t.byteAt 0 = 0xF0)) = true := by
  decide +kernel
/-- V112: VF included, I unchanged. -/
theorem test_store_all : runs { State.reset.setV 15 0x1F with i := 0x400 } 0xFF55
    (fun t => decide (t.byteAt 0x40F = 0x1F ∧ t.byteAt 0x410 = 0 ∧ t.i = 0x400)) = true := by decide +kernel
/-- V114. -/
theorem test_load : runs (withBytes (State.reset.setV 3 0x77) 0x400 [9, 8, 7, 6]) 0xF265
    (fun t => decide (t.v[0] = 9 ∧ t.v[2] = 7 ∧ t.v[3] = 0x77 ∧ t.i = 0x400)) = true := by decide +kernel
/-- V115: a register whose byte is beyond memory is kept. -/
theorem test_load_beyond : runs (withBytes (rig 0 0x11 1 0x22) 0xFFF [0x99]) 0xF165
    (fun t => decide (t.v[0] = 0x99 ∧ t.v[1] = 0x22)) = true := by decide +kernel

/-! ### Display -/

/-- T4, V129: no flag. -/
theorem test_cls : runs { State.reset.setV 15 1 with display := setCell blankDisplay 31 63 true } 0x00E0
    (fun t => decide (onCells t 31 = [] ∧ t.v[15] = 1)) = true := by decide +kernel
/-- T5: clipped at the right edge. -/
theorem test_drw_clips : runs (withBytes (State.reset.setV 0 60) 0x300 [0xFF]) 0xD011
    (fun t => decide (onCells t 0 = [60, 61, 62, 63] ∧ t.v[15] = 0)) = true := by decide +kernel
/-- V128: XOR and collision. -/
theorem test_drw_collides : runs
    { withBytes State.reset 0x300 [0xF0] with display := setCell (setCell blankDisplay 0 3 true) 0 4 true } 0xD011
    (fun t => decide (onCells t 0 = [0, 1, 2, 4] ∧ t.v[15] = 1)) = true := by decide +kernel

/-! ### Keypad and timers -/

/-- V140, V144. -/
theorem test_skp : runs (withKey (State.reset.setV 3 7) 7) 0xE39E (fun t => decide (t.pc = 0x204)) = true ∧
    runs (State.reset.setV 3 16) 0xE39E
      (fun t => decide (t.fault = some .keyIndexOutOfRange ∧ t.pc = 0x200)) = true := by decide +kernel
/-- V142, V143. -/
theorem test_sknp : runs (withKey (State.reset.setV 3 7) 7) 0xE3A1 (fun t => decide (t.pc = 0x202)) = true ∧
    runs (State.reset.setV 3 7) 0xE3A1 (fun t => decide (t.pc = 0x204)) = true := by decide +kernel
/-- V146. -/
theorem test_wait_no_key : runs (State.reset.setV 5 0x44) 0xF50A
    (fun t => decide (t.pc = 0x200 ∧ t.v[5] = 0x44)) = true := by decide +kernel
/-- V148 with the default parameter. -/
theorem test_wait_two_keys : runs (withKey (withKey State.reset 11) 3) 0xF50A
    (fun t => decide (t.pc = 0x202 ∧ t.v[5] = 3)) = true := by decide +kernel
/-- V149. -/
theorem test_read_dt : runs { State.reset with dt := 0x11 } 0xF407
    (fun t => decide (t.v[4] = 0x11 ∧ t.dt = 0x11)) = true := by decide +kernel
/-- V150. -/
theorem test_set_dt : runs (State.reset.setV 3 0x2A) 0xF315
    (fun t => decide (t.dt = 0x2A ∧ t.st = 0)) = true := by decide +kernel
/-- V151. -/
theorem test_set_st : runs (State.reset.setV 3 0x2A) 0xF318
    (fun t => decide (t.st = 0x2A ∧ t.dt = 0)) = true := by decide +kernel

/-! ### Tick, host, reset -/

/-- V161, the end of the tick. -/
theorem test_tick_end : answers (step { State.reset with slot := 8, st := 255 })
    (fun t => decide (t.dt = 0 ∧ t.st = 254 ∧ t.slot = 0)) = true := by decide +kernel
/-- A pause and a key at the yield point, in order (R171). -/
theorem test_host_events : answers (step { State.reset with slot := 8, inputs := [[.keyDown 11, .togglePause]] })
    (fun t => decide (t.keypad[11] = true ∧ t.runState = .paused ∧ t.inputs = [])) = true := by decide +kernel
/-- R191: the ROM at 0x200, the font at 0. -/
theorem test_load_rom : answers (State.load [0x12, 0x34] State.reset)
    (fun t => decide (t.byteAt 0x200 = 0x12 ∧ t.byteAt 0x201 = 0x34 ∧ t.byteAt 0x04F = 0x80)) = true := by
  decide +kernel
theorem test_reset_memory_form : State.reset.mem.wf = true := by decide

/-! ### Witnesses: for every obligation with hypotheses, what meets them -/

theorem witness_DecodeOfEncodeIsTheInstruction : (Instr.drw 15 15 15).wellFormed = true := by decide
theorem witness_EncodeOfDecodedWordIsTheWord : decodeWord 0x8AB6 = .ok (.shr 10 11) := by decide
theorem witness_WordsDecodeByTheRows_first : opcodeTable[0]? = some ⟨"CLS", 0x00E0, 0xFFFF⟩ ∧
    (0x00E0 : Word) &&& 0xFFFF = 0x00E0 := by decide
theorem witness_WordsDecodeByTheRows_last : opcodeTable[33]? = some ⟨"LD_VX_MEM", 0xF065, 0xF0FF⟩ ∧
    (0xFF65 : Word) &&& 0xF0FF = 0xF065 := by decide

/-- The last fetchable address in the last slot of the tick. -/
def lastSlot (w : Nat) : State := { State.reset with pc := 0xFFE, slot := 7 }.withFetchWord 16 w

theorem witness_StepRunsTheDecodedInstruction : ∃ t,
    exec (.ldImm 10 0x55) { lastSlot 0x6A55 with ir := Fields.ofWord (encode (.ldImm 10 0x55)), pc := (lastSlot 0x6A55).pc + 2 }
      = .next t ∧ t.fault = none ∧ (lastSlot 0x6A55).fault = none ∧ (lastSlot 0x6A55).runState = .running ∧
    (lastSlot 0x6A55).slot < (lastSlot 0x6A55).config.ipt ∧ (lastSlot 0x6A55).pc.toNat ≤ 0xFFE ∧
    decodeBytes [(lastSlot 0x6A55).byteAt (lastSlot 0x6A55).pc.toNat,
      (lastSlot 0x6A55).byteAt ((lastSlot 0x6A55).pc.toNat + 1)] = .ok (.ldImm 10 0x55, []) :=
  exists_next (by decide +kernel)
theorem witness_StepRunsTheDecodedInstruction_fault : ∃ t,
    exec .ret { lastSlot 0x00EE with ir := Fields.ofWord (encode .ret), pc := (lastSlot 0x00EE).pc + 2 } = .next t ∧
    t.fault = some .stackUnderflow ∧
    decodeBytes [(lastSlot 0x00EE).byteAt (lastSlot 0x00EE).pc.toNat,
      (lastSlot 0x00EE).byteAt ((lastSlot 0x00EE).pc.toNat + 1)] = .ok (.ret, []) :=
  exists_next (by decide +kernel)

theorem witness_inSlot_beyond : State.InSlot { State.reset with pc := 0xFFF, slot := 7 } ∧
    0xFFE < ({ State.reset with pc := 0xFFF, slot := 7 } : State).pc.toNat := ⟨⟨rfl, rfl, by decide⟩, by decide⟩
theorem lastSlot_inSlot : (lastSlot 0x6A55).InSlot ∧ (lastSlot 0x9121).InSlot ∧ (lastSlot 0xF50A).InSlot := by
  unfold State.InSlot; decide +kernel
theorem witness_FetchReadsTwoBytesOrFaults : ∃ t, step (lastSlot 0x6A55) = .next t ∧
    (lastSlot 0x6A55).pc.toNat ≤ 0xFFE ∧ t.fault = none := exists_next (by decide +kernel)
theorem witness_InstructionRegister_kept : ∃ t, step { State.reset with runState := .paused } = .next t ∧
    ¬ State.InSlot { State.reset with runState := .paused } := ⟨_, rfl, fun h => by cases h.2.1⟩
theorem witness_InstructionRegister_fault : ∃ t, step (lastSlot 0x00EE) = .next t ∧ t.fault ≠ none :=
  exists_next (by decide +kernel)
theorem witness_UnknownOpcodeIsANoOp : (lastSlot 0x9121).pc.toNat ≤ 0xFFE ∧
    ∀ r ∈ opcodeTable, (lastSlot 0x9121).fetchWord &&& r.mask ≠ r.pattern := by decide +kernel

/-! Faults: each of the six raised, at the boundary of its condition, and not raised just inside. -/

theorem witness_fault_ret : ∃ t, step (State.reset.withFetchWord 16 0x00EE) = .next t ∧
    t.fault = some .stackUnderflow := exists_next (by decide +kernel)
theorem witness_fault_call : ∃ t, step ({ State.reset with sp := 16 }.withFetchWord 16 0x2300) = .next t ∧
    t.fault = some .stackOverflow := exists_next (by decide +kernel)
theorem witness_fault_sprite : ∃ t, step ({ State.reset with i := 0xFFF }.withFetchWord 16 0xD012) = .next t ∧
    t.fault = some .spriteReadOutOfRange := exists_next (by decide +kernel)
theorem witness_no_fault_sprite_clipped : ∃ t,
    step ({ State.reset.setV 1 31 with i := 0xFFF }.withFetchWord 16 0xD01F) = .next t ∧ t.fault = none :=
  exists_next (by decide +kernel)
theorem witness_fault_bcd : ∃ t, step ({ State.reset with i := 0xFFE }.withFetchWord 16 0xF333) = .next t ∧
    t.fault = some .bcdWriteOutOfRange := exists_next (by decide +kernel)
theorem witness_fault_key : ∃ t, step ((State.reset.setV 3 16).withFetchWord 16 0xE3A1) = .next t ∧
    t.fault = some .keyIndexOutOfRange := exists_next (by decide +kernel)
theorem witness_no_fault_key_15 : ∃ t, step ((State.reset.setV 3 15).withFetchWord 16 0xE3A1) = .next t ∧
    t.fault = none := exists_next (by decide +kernel)
theorem witness_halted : ({ State.reset with fault := some .stackUnderflow } : State).fault = some .stackUnderflow := rfl

/-! Ticks and the host. -/

theorem witness_tickEnd : ({ State.reset with slot := 8 } : State).fault = none ∧
    ({ State.reset with slot := 8 } : State).runState = .running ∧
    ({ State.reset with slot := 8 } : State).config.ipt ≤ 8 := by decide +kernel
theorem witness_tickEnd_inputs : State.reset.inputs = [] ∧
    ({ State.reset with slot := 8, inputs := [[.keyDown 3], []] } : State).inputs = [.keyDown 3] :: [[]] := by
  decide +kernel
theorem witness_TimersDecrement_loads : ∃ t, step ((State.reset.setV 3 0x2A).withFetchWord 16 0xF315) = .next t ∧
    t.dt ≠ State.reset.dt := exists_next (by decide +kernel)
theorem witness_TimersDecrement_sound : ∃ t, step ((State.reset.setV 3 0x2A).withFetchWord 16 0xF318) = .next t ∧
    t.st ≠ State.reset.st := exists_next (by decide +kernel)
theorem witness_paused : ({ State.reset with runState := .paused, inputs := [[.togglePause]] } : State).fault = none ∧
    ({ State.reset with runState := .paused, inputs := [[.togglePause]] } : State).runState = .paused := by decide +kernel
theorem witness_running : State.reset.fault = none ∧ State.reset.runState = .running := by decide
theorem witness_quit : ({ State.reset with runState := .quit } : State).fault = none ∧
    ({ State.reset with runState := .quit } : State).runState = .quit := by decide +kernel
theorem witness_KeyEvents : State.reset.fault = none ∧ State.reset.runState ≠ .quit ∧
    State.reset.keypad[(15 : Reg)] = false ∧ (withKey State.reset 15).keypad[(15 : Reg)] = true := by decide +kernel

/-- A jump to itself with two slots in a tick. -/
def twoSlots : State :=
  { State.reset with config := { Config.default with rate := 120 } }.withFetchWord 16 0x1200

theorem witness_RunningTick_full : ∃ u, State.Runs 2 twoSlots u ∧ u.fault = none ∧ twoSlots.fault = none ∧
    twoSlots.runState = .running ∧ twoSlots.slot = 0 ∧ 2 = twoSlots.config.ipt :=
  exists_runs 2 twoSlots _ (by decide +kernel)
theorem witness_RunningTick_part : ∃ u, State.Runs 1 twoSlots u ∧ u.fault = none ∧ 1 < twoSlots.config.ipt :=
  exists_runs 1 twoSlots _ (by decide +kernel)
/-- With a RATE below 60 a tick has no slot at all (R166). -/
theorem witness_RunningTick_empty :
    ({ State.reset with config := { Config.default with rate := 59 } } : State).config.ipt = 0 := by decide

theorem witness_rom_longest : (List.replicate 3584 (0xFF : Byte)).length ≤ 3584 := by
  rw [List.length_replicate]
theorem witness_rom_too_long : 3584 < (List.replicate 3585 (0xFF : Byte)).length := by
  rw [List.length_replicate]; decide

/-- A state with the bounds of the invariant reached: pc, I, a stack entry, the slot count. -/
def atBounds : State :=
  { State.reset with pc := 0x10FE, i := 0xFFF, sp := 1, stack := State.reset.stack.set 0 0x1000, slot := 8 }

theorem witness_StepKeepsTheInvariant : atBounds.Inv ∧ ∃ t, step atBounds = .next t := by
  refine ⟨⟨by decide, by decide, ?_, by decide, by decide, by decide⟩, _, rfl⟩
  intro k hk
  have : k = 0 := by ext; exact Nat.lt_one_iff.1 hk
  subst this; decide

/-! Control flow. -/

theorem witness_ReturnPopsTheStack : State.reset.sp = 0 ∧
    ({ State.reset with sp := 1 } : State).sp = (0 : Fin 16).succ ∧
    ({ State.reset with sp := 16 } : State).sp = (15 : Fin 16).succ := by decide +kernel
theorem witness_CallPushesTheAdvancedPc : ({ State.reset with sp := 16 } : State).sp = 16 ∧
    State.reset.sp = (0 : Fin 16).castSucc ∧
    ({ State.reset with sp := 15 } : State).sp = (15 : Fin 16).castSucc := by decide +kernel
theorem witness_ReturnAfterCallRestoresThePc : ∃ u, exec (.call 0x300) { State.reset with sp := 15 } = .next u ∧
    ({ u with pc := 0x345 } : State).sp = u.sp ∧
    ∀ k : Fin 16, k.val < u.sp.val → ({ u with pc := 0x345 } : State).stack[k] = u.stack[k] :=
  ⟨_, rfl, rfl, fun _ _ => rfl⟩

/-! Arithmetic: each kind of register choice, and what the flag `f` is in it. -/

/-- Register choices for 8XY4, 8XY6 and 8XYE: a register that is neither V[X] nor VF, and X = 0xF. -/
theorem witness_flag_writers : (2 : Reg) ≠ 1 ∧ (2 : Reg) ≠ 15 ∧ (1 : Reg) ≠ 15 ∧ (15 : Reg) = 15 := by decide
theorem witness_SubtractByItsTable : (1 : Reg) ≠ 15 ∧ (2 : Reg) ≠ 15 ∧
    (1 : Byte) = (if (rig 1 7 2 7).v[(2 : Reg)].toNat ≤ (rig 1 7 2 7).v[(1 : Reg)].toNat then 1 else 0) ∧
    (0 : Byte) = (if (rig 15 2 1 3).v[(1 : Reg)].toNat ≤ (rig 15 2 1 3).v[(15 : Reg)].toNat then 1 else 0) ∧
    (1 : Byte) = (if (rig 1 5 15 5).v[(15 : Reg)].toNat ≤ (rig 1 5 15 5).v[(1 : Reg)].toNat then 1 else 0) := by
  decide +kernel
theorem witness_ReverseSubtractByItsTable :
    (1 : Byte) = (if (rig 1 7 2 7).v[(1 : Reg)].toNat ≤ (rig 1 7 2 7).v[(2 : Reg)].toNat then 1 else 0) ∧
    (0 : Byte) = (if (rig 15 10 1 9).v[(15 : Reg)].toNat ≤ (rig 15 10 1 9).v[(1 : Reg)].toNat then 1 else 0) ∧
    (1 : Byte) = (if (rig 1 5 15 9).v[(1 : Reg)].toNat ≤ (rig 1 5 15 9).v[(15 : Reg)].toNat then 1 else 0) := by
  decide +kernel

/-! Memory. -/

theorem witness_DecimalDigits_beyond : 0xFFF < State.ea { State.reset with i := 0xFFE } 2 := by decide
theorem witness_DecimalDigits_last : State.ea { State.reset with i := 0xFFD } 2 ≤ 0xFFF ∧
    State.reset.mem.wf = true := by decide
theorem witness_RegistersAreStored : State.reset.mem.wf = true ∧ (1 : Reg) ≤ 3 ∧
    State.ea { State.reset with i := 0xFFE } 1 ≤ 0xFFF ∧ ¬ State.ea { State.reset with i := 0xFFE } 2 ≤ 0xFFF := by
  decide
/-- An address no element is stored to, and one an element beyond it is stored to. -/
theorem witness_RegistersAreStored_outside : ∀ r : Reg, r ≤ 3 →
    State.ea { State.reset with i := 0xFFE } r.val ≤ 0xFFF → 0xFFD ≠ State.ea { State.reset with i := 0xFFE } r.val := by
  decide
theorem witness_RegistersAreLoaded : (0 : Reg) ≤ 1 ∧ (0xFFF : Word).toNat + (0 : Reg).val ≤ 0xFFF ∧
    ¬ ((1 : Reg) ≤ 1 ∧ (0xFFF : Word).toNat + (1 : Reg).val ≤ 0xFFF) := by decide
/-- FX55 stores both bytes of the word at the advanced pc 0x200. -/
theorem witness_StoredWord_both : ∃ t, exec (.ldMemVx 1) { State.reset with i := 0x200 } = .next t ∧
    State.reset.mem.wf = true ∧ t.pc = 0x200 := exists_next (by decide +kernel)
theorem witness_Stores_both : Stores (.ldMemVx 1) { State.reset with i := 0x200 } 0x200 0 ∧
    Stores (.ldMemVx 1) { State.reset with i := 0x200 } 0x201 0 :=
  ⟨⟨0, by decide +kernel⟩, 1, by decide +kernel⟩
/-- FX33 stores its last digit over the high byte only: I = 0x1FE, so 0x201 is not stored to. -/
theorem witness_StoredWord_high_only :
    Stores (.ldB 3) { State.reset.setV 3 137 with i := 0x1FE } 0x200 7 ∧
    ∀ b, ¬ Stores (.ldB 3) { State.reset.setV 3 137 with i := 0x1FE } 0x201 b := by
  refine ⟨⟨by decide, .inr (.inr (by decide +kernel))⟩, ?_⟩
  rintro b ⟨-, h | h | h⟩ <;> exact absurd h.1 (by decide)
/-- FX55 at 0x201 stores over the low byte only. -/
theorem witness_StoredWord_low_only : Stores (.ldMemVx 0) { State.reset.setV 0 7 with i := 0x201 } 0x201 7 ∧
    ∀ b, ¬ Stores (.ldMemVx 0) { State.reset.setV 0 7 with i := 0x201 } 0x200 b := by
  refine ⟨⟨0, by decide +kernel⟩, ?_⟩
  rintro b ⟨r, -, h, -⟩
  have : 0x200 = 0x201 + r.val := h
  omega
/-- R50: a stored high byte beside an old low byte makes the word fetched next. -/
theorem test_store_one_byte_of_next_word : answers
    (exec (.ldB 3) { withBytes (State.reset.setV 3 137) 0x200 [0x60, 0x55] with i := 0x1FE })
    (fun t => decide (t.fetchWord = 0x0755)) = true := by decide +kernel

/-! Display. -/

theorem witness_Draw_beyond : (2 : Nat) = min (2 : BitVec 4).toNat (32 - 0) ∧ 0 < 2 ∧
    0xFFF < (0xFFF : Word).toNat + 2 - 1 := by decide
theorem witness_Draw_inside : (1 : Nat) = min (15 : BitVec 4).toNat (32 - 31) ∧
    ¬ (0 < 1 ∧ 0xFFF < (0xFFF : Word).toNat + 1 - 1) := by decide
theorem witness_Draw_no_rows : (0 : Nat) = min (0 : BitVec 4).toNat (32 - 0) ∧
    ¬ (0 < 0 ∧ 0xFFF < (0xFFF : Word).toNat + 0 - 1) := by decide
/-- The sprite byte 0xF0 at column 0 covers columns 0 to 3 and no more. -/
theorem witness_SpriteCovers : SpriteCovers (withBytes State.reset 0x300 [0xF0]) 0 0 1 0 3 ∧
    ¬ SpriteCovers (withBytes State.reset 0x300 [0xF0]) 0 0 1 0 4 := by
  unfold SpriteCovers; decide +kernel
theorem witness_Draw_collides :
    SpriteCovers { withBytes State.reset 0x300 [0xF0] with display := setCell blankDisplay 0 3 true } 0 0 1 0 3 ∧
    cellAt (setCell blankDisplay 0 3 true) 0 3 = true := by
  unfold SpriteCovers; decide +kernel
theorem witness_Draw_no_collision : ¬ ∃ r c, SpriteCovers (withBytes State.reset 0x300 [0xF0]) 0 0 1 r c ∧
    cellAt (withBytes State.reset 0x300 [0xF0]).display r c = true := by
  rintro ⟨r, c, -, h⟩
  have : cellAt blankDisplay r c = true := h
  unfold cellAt blankDisplay at this
  split at this <;> simp at this
theorem witness_DrawingTwice : (0 : Reg) ≠ 15 ∧ (1 : Reg) ≠ 15 ∧
    (60 : Nat) = (State.reset.setV 0 60).v[(0 : Reg)].toNat % 64 ∧
    (0 : Nat) = (State.reset.setV 0 60).v[(1 : Reg)].toNat % 32 ∧ (1 : Nat) = min (1 : BitVec 4).toNat (32 - 0) ∧
    answers (exec (.drw 0 1 1) (withBytes (State.reset.setV 0 60) 0x300 [0xFF])) (fun t => decide (t.fault = none)) = true := by
  decide +kernel
/-- On cells that were on, the second draw of the same sprite reports no collision: the reading of
R132 that corner case (f) passes over (log 10). -/
theorem test_draw_twice_on_cells_that_were_on : runs
    { withBytes State.reset 0x300 [0x80] with display := setCell blankDisplay 0 0 true } 0xD011
    (fun t => runs t 0xD011 (fun u => decide (t.v[15] = 1 ∧ u.v[15] = 0 ∧ onCells u 0 = [0]))) = true := by
  decide +kernel

/-! Keys. -/

theorem witness_KeySkips : 15 < (State.reset.setV 3 16).v[(3 : Reg)].toNat ∧
    (State.reset.setV 3 15).v[(3 : Reg)].toNat = (15 : Reg).val := by decide +kernel
theorem witness_KeyWait_none : (∀ k : Reg, State.reset.keypad[k] = false) ∧
    decodeWord (lastSlot 0xF50A).fetchWord = .ok (.ldVxK 5) ∧ ∀ k : Reg, (lastSlot 0xF50A).keypad[k] = false := by
  decide +kernel
theorem witness_KeyWait_one : ∀ l : Reg, (withKey State.reset 11).keypad[l] = true ↔ l = 11 := by decide +kernel
theorem witness_KeyWait_default : State.reset.config.keyPick = [] ∧
    (withKey (withKey State.reset 11) 3).keypad[(11 : Reg)] = true := by decide +kernel

/-! Rules over the whole instruction set. -/

theorem witness_RegistersChange : ∃ t, exec (.addReg 1 2) (rig 1 200 2 100) = .next t ∧ ¬ MayWriteReg (.addReg 1 2) 2 :=
  ⟨_, rfl, by unfold MayWriteReg; decide⟩
theorem witness_units_memory : ∃ t, exec (.ldB 3) { State.reset.setV 3 137 with i := 0x300 } = .next t ∧
    t.mem ≠ State.reset.mem := exists_next (by decide +kernel)
theorem witness_units_display : ∃ t, exec (.drw 0 1 1) (withBytes State.reset 0x300 [0xFF]) = .next t ∧
    t.display ≠ State.reset.display := exists_next (by decide +kernel)
theorem witness_units_stack : ∃ t, exec (.call 0x300) State.reset = .next t ∧ t.sp ≠ State.reset.sp ∧
    t.stack ≠ State.reset.stack := exists_next (by decide +kernel)
theorem witness_units_index_timers_draws : (∃ t, exec (.ldI 1) State.reset = .next t ∧ t.i ≠ State.reset.i) ∧
    (∃ t, exec (.ldDtVx 3) (State.reset.setV 3 1) = .next t ∧ t.dt ≠ State.reset.dt) ∧
    (∃ t, exec (.ldStVx 3) (State.reset.setV 3 1) = .next t ∧ t.st ≠ State.reset.st) ∧
    (∃ t, exec (.rnd 3 0) State.reset = .next t ∧ t.draws ≠ State.reset.draws) :=
  ⟨exists_next (by decide +kernel), exists_next (by decide +kernel), exists_next (by decide +kernel),
    _, rfl, Nat.one_ne_zero⟩
theorem witness_units_pc_registers : (∃ t, exec (.jp 0x300) State.reset = .next t ∧ t.pc ≠ State.reset.pc) ∧
    ∃ t, exec (.ldImm 3 7) State.reset = .next t ∧ t.v ≠ State.reset.v :=
  ⟨exists_next (by decide +kernel), exists_next (by decide +kernel)⟩
theorem witness_units_fault : ∃ t, exec .ret State.reset = .next t ∧ t.fault ≠ State.reset.fault :=
  exists_next (by decide +kernel)
theorem witness_InstructionsCannotRead : (∃ t, exec (.ldVxDt 4) { State.reset with dt := 0x11 } = .next t) ∧
    (∀ x, Instr.ldVxDt 4 ≠ .ldStVx x) ∧ ∃ t, exec (.ldStVx 3) State.reset = .next t :=
  ⟨⟨_, rfl⟩, by decide, _, rfl⟩

end Sys2Proof.Tests
end

/-! PROOFS. The event reset(ROM): what the reset image reads as, region by region, and the whole
state after reset (10_state R24, 70_reset R191). -/

namespace Sys2Proof.Machine

/-! ### The reset image, region by region -/

/-- Beyond the font region an unlisted address reads as 0. -/
theorem Memory.resetByte_beyond_font (a : Nat) (ha : 80 ≤ a) : Memory.resetByte a = 0 := by
  have hlen : Config.fontBytes.length = 80 := rfl
  rw [Memory.resetByte, List.getD_eq_default _ _ (hlen ▸ ha)]

section
variable {font : Vector Byte 80} {rom : List Byte}

/-- Below 0x200 the reset image holds the font, then 0. -/
theorem Memory.read_image_below_rom {a : Nat} (ha : a < 0x200) :
    Memory.read (Memory.image font rom) a = font.toList.getD a 0 := by
  rw [Memory.image, Memory.read_writeBytes_outside _ _ _ _ (.inl ha),
    Memory.read_writeBytes _ _ _ _ Memory.wf_nil (by simp [topAddress])]
  split_ifs with hfont
  · rfl
  · have hlen : font.toList.length ≤ a := by omega
    rw [List.getD_eq_default _ _ hlen, Memory.read_nil,
      Memory.resetByte_beyond_font a (by simpa using hlen)]

/-- From 0x200 the reset image holds the ROM, then 0. -/
theorem Memory.read_image_from_rom (hrom : rom.length ≤ 3584) (k : Nat) :
    Memory.read (Memory.image font rom) (0x200 + k) = rom.getD k 0 := by
  have hwf : (Memory.writeBytes [] 0 font.toList).wf = true :=
    Memory.writeBytes_wf _ _ _ Memory.wf_nil (by simp [topAddress])
  rw [Memory.image, Memory.read_writeBytes _ _ _ _ hwf (by simp only [topAddress]; omega)]
  split_ifs with hk
  · rw [Nat.add_sub_cancel_left]
  · have hlen : rom.length ≤ k := by omega
    rw [List.getD_eq_default _ _ hlen,
      Memory.read_writeBytes_outside _ _ _ _ (.inr (by simp; omega)), Memory.read_nil,
      Memory.resetByte_beyond_font _ (by omega)]

theorem Memory.read_image_font (k : Fin 80) :
    Memory.read (Memory.image font rom) k.val = font[k] := by
  rw [Memory.read_image_below_rom (by omega)]
  simp

theorem Memory.read_image_between {a : Nat} (hfont : 0x050 ≤ a) (ha : a ≤ 0x1FF) :
    Memory.read (Memory.image font rom) a = 0 := by
  rw [Memory.read_image_below_rom (by omega), List.getD_eq_default _ _ (by simpa using hfont)]

theorem Memory.read_image_rom (hrom : rom.length ≤ 3584) (k : Nat) (hk : k < rom.length) :
    Memory.read (Memory.image font rom) (0x200 + k) = rom[k] := by
  rw [Memory.read_image_from_rom hrom, List.getD_eq_getElem _ _ hk]

theorem Memory.read_image_beyond_rom (hrom : rom.length ≤ 3584) {a : Nat}
    (ha : 0x200 + rom.length ≤ a) : Memory.read (Memory.image font rom) a = 0 := by
  obtain ⟨k, rfl⟩ := Nat.exists_eq_add_of_le (show 0x200 ≤ a by omega)
  rw [Memory.read_image_from_rom hrom, List.getD_eq_default _ _ (by omega)]

end

/-! ### The state after reset -/

/-- The state that reset(ROM) answers: `State.reset` but for the memory image and for what is not
state (R23, log 6). -/
def State.afterReset (rom : List Byte) (s : State) : State :=
  { State.reset with
    mem := Memory.image s.config.font rom
    config := s.config
    inputs := s.inputs
    draws := s.draws }

theorem load_of_fits {rom : List Byte} (hrom : rom.length ≤ 3584) (s : State) :
    s.load rom = .next (s.afterReset rom) :=
  if_pos (decide_eq_true hrom)

/-- Settles O20: each region of memory by the lemma on the reset image, the registers, the stack
and the keypad as constant vectors, and every other piece of state by definition. -/
theorem resetGivesTheStatedState : Obligations.ResetGivesTheStatedState := by
  intro s rom hrom
  have cleared {α : Type} {n : Nat} (c : α) (k : Fin n) : (Vector.replicate n c)[k] = c :=
    Vector.getElem_replicate k.isLt
  exact ⟨s.afterReset rom, load_of_fits hrom s, cleared 0, rfl, rfl, rfl, cleared 0,
    Memory.read_image_font, fun _ => Memory.read_image_between, Memory.read_image_rom hrom,
    fun _ ha _ => Memory.read_image_beyond_rom hrom ha, cellAt_blank, rfl, rfl, cleared false,
    rfl, rfl, rfl, rfl⟩

end Sys2Proof.Machine

/-! PROOFS. The fields of an opcode: the source's masks as bit ranges, and how the ranges lie next
to each other (30_encoding R61). -/

namespace Sys2Proof

/-! ### The fields as numbers -/

/-- A bit range read as a number is a shift and a mask, the form in which R61 states every field. -/
theorem extract_toNat_eq_shift_mask (w : Word) (s l : Nat) :
    (w.extractLsb' s l).toNat = w.toNat >>> s &&& (2 ^ l - 1) := by
  rw [BitVec.extractLsb'_toNat, Nat.and_two_pow_sub_one_eq_mod]

theorem familyOf_eq_shiftRight (w : Word) : familyOf w = w.toNat >>> 12 := by
  rw [familyOf_eq, Nat.shiftRight_eq_div_pow]

section
variable (op : Word)

theorem Fields.ofWord_nnn_toNat : (Fields.ofWord op).nnn.toNat = op.toNat &&& 0x0FFF :=
  extract_toNat_eq_shift_mask op 0 12

theorem Fields.ofWord_nn_toNat : (Fields.ofWord op).nn.toNat = op.toNat &&& 0x00FF :=
  extract_toNat_eq_shift_mask op 0 8

theorem Fields.ofWord_n_toNat : (Fields.ofWord op).n.toNat = op.toNat &&& 0x000F :=
  extract_toNat_eq_shift_mask op 0 4

theorem Fields.ofWord_x_toNat : (Fields.ofWord op).x.toNat = op.toNat >>> 8 &&& 0xF :=
  extract_toNat_eq_shift_mask op 8 4

theorem Fields.ofWord_y_toNat : (Fields.ofWord op).y.toNat = op.toNat >>> 4 &&& 0xF :=
  extract_toNat_eq_shift_mask op 4 4

/-! ### Neighbouring fields joined -/

theorem Fields.ofWord_nn_eq_y_append_n :
    (Fields.ofWord op).nn = (Fields.ofWord op).y ++ (Fields.ofWord op).n :=
  (BitVec.extractLsb'_append_extractLsb'_eq_extractLsb' (x := op)
    (start₁ := 0) (len₁ := 4) (len₂ := 4) rfl).symm

theorem Fields.ofWord_nnn_eq_x_append_nn :
    (Fields.ofWord op).nnn = (Fields.ofWord op).x ++ (Fields.ofWord op).nn :=
  (BitVec.extractLsb'_append_extractLsb'_eq_extractLsb' (x := op)
    (start₁ := 0) (len₁ := 8) (len₂ := 4) rfl).symm

theorem highByte_eq_family_append_x :
    highByte op = op.extractLsb' 12 4 ++ (Fields.ofWord op).x :=
  (BitVec.extractLsb'_append_extractLsb'_eq_extractLsb' (x := op)
    (start₁ := 8) (len₁ := 4) (len₂ := 4) rfl).symm

theorem lowByte_eq_nn : lowByte op = (Fields.ofWord op).nn := rfl

end

/-- Settles O5: each formula is the shift and mask of the field's bit range, and each overlap joins
two neighbouring ranges. -/
theorem fieldsAreThoseOfTheOpcode : Obligations.FieldsAreThoseOfTheOpcode := by
  intro op
  have hnnn : (Fields.ofWord op).nnn =
      (Fields.ofWord op).x ++ ((Fields.ofWord op).y ++ (Fields.ofWord op).n) := by
    rw [← Fields.ofWord_nn_eq_y_append_n]
    exact Fields.ofWord_nnn_eq_x_append_nn op
  exact ⟨rfl, Fields.ofWord_nnn_toNat op, Fields.ofWord_nn_toNat op, Fields.ofWord_n_toNat op,
    Fields.ofWord_x_toNat op, Fields.ofWord_y_toNat op, hnnn, Fields.ofWord_nn_eq_y_append_n op,
    familyOf_eq_shiftRight op, highByte_eq_family_append_x op, lowByte_eq_nn op⟩

end Sys2Proof

/-! PROOFS. Fetch, decode and step: what no instruction writes, IR over one step (R82), and the no-op
of a word that no row selects (R84). -/

namespace Sys2Proof

/-! ### A decoded word is the word of its instruction -/

section
variable {w : Word} {f : BitVec 4}

/-! The formats put together again from the family, the registers and the fields of a word. -/

theorem formatA_of_fields (hf : familyOf w = f.toNat) : formatA f (w.extractLsb' 0 12) = w := by
  have hfamily : w.extractLsb' 12 4 = f := BitVec.eq_of_toNat_eq hf
  rw [← hfamily]
  exact (BitVec.extractLsb'_append_extractLsb'_eq_extractLsb' (x := w)
    (start₁ := 0) (len₁ := 12) (len₂ := 4) rfl).trans BitVec.extractLsb'_eq_self

theorem formatI_of_fields (hf : familyOf w = f.toNat) {nn : Byte}
    (hnn : (w.extractLsb' 0 8).toNat = nn.toNat) : formatI f (w.extractLsb' 8 4).toFin nn = w := by
  have hx : regBits (w.extractLsb' 8 4).toFin ++ nn = w.extractLsb' 0 12 := by
    rw [← BitVec.eq_of_toNat_eq hnn]
    exact BitVec.extractLsb'_append_extractLsb'_eq_extractLsb' rfl
  rw [formatI, hx]
  exact formatA_of_fields hf

theorem formatR_of_fields (hf : familyOf w = f.toNat) {n : BitVec 4}
    (hn : (w.extractLsb' 0 4).toNat = n.toNat) :
    formatR f (w.extractLsb' 8 4).toFin (w.extractLsb' 4 4).toFin n = w := by
  have hy : regBits (w.extractLsb' 4 4).toFin ++ n = w.extractLsb' 0 8 := by
    rw [← BitVec.eq_of_toNat_eq hn]
    exact BitVec.extractLsb'_append_extractLsb'_eq_extractLsb' rfl
  rw [formatR, hy]
  exact formatI_of_fields hf rfl

end

/-- Encoding what a word decodes to gives the word back (R64, R69): family by family, the word is
put together again from its fields. -/
theorem encode_of_decodeWord {w : Word} {i : Instr} (h : decodeWord w = .ok i) : encode i = w := by
  unfold decodeWord at h
  dsimp only at h
  split at h
  -- family 0: the whole word is given
  · split at h <;> cases h <;> exact BitVec.eq_of_toNat_eq (Eq.symm ‹_›)
  -- families 1 and 2: format A
  iterate 2 · cases h; exact formatA_of_fields ‹_›
  -- families 3 and 4: format I
  iterate 2 · cases h; exact formatI_of_fields ‹_› rfl
  -- family 5: format R, N given
  · split at h <;> cases h; exact formatR_of_fields ‹_› ‹_›
  -- families 6 and 7: format I
  iterate 2 · cases h; exact formatI_of_fields ‹_› rfl
  -- families 8 and 9: format R, N given
  iterate 2 · split at h <;> cases h <;> exact formatR_of_fields ‹_› ‹_›
  -- families A and B: format A
  iterate 2 · cases h; exact formatA_of_fields ‹_›
  -- family C: format I
  · cases h; exact formatI_of_fields ‹_› rfl
  -- family D: format D
  · cases h; exact formatR_of_fields ‹_› rfl
  -- families E and F: format I, NN given
  iterate 2 · split at h <;> cases h <;> exact formatI_of_fields ‹_› ‹_›
  · cases h

/-! ### A word that no row selects -/

section
open Laws.OwnRow

/-- Every instruction's word is selected by the instruction's own row (R64). -/
theorem ownRow_selects (i : Instr) : Statement i :=
  i.casesOn cls ret jp call seImm sneImm seReg ldImm addImm ldReg orReg andReg xorReg addReg sub shr
    subn shl sneReg ldI jpV0 rnd drw skp sknp ldVxK ldVxDt ldDtVx ldStVx addI ldF ldB ldMemVx ldVxMem

end

/-- A word that decodes to an instruction is selected by a row of the opcode map (R64). -/
theorem row_selects_of_decodeWord {w : Word} {i : Instr} (h : decodeWord w = .ok i) :
    ∃ r ∈ opcodeTable, w &&& r.mask = r.pattern := by
  obtain ⟨r, hr, hsel⟩ := ownRow_selects i
  rw [encode_of_decodeWord h] at hsel
  exact ⟨r, List.mem_of_getElem? hr, beq_iff_eq.1 hsel⟩

/-- A word that no row selects decodes to no instruction (R66). -/
theorem decodeWord_error_of_no_row {w : Word}
    (hw : ∀ r ∈ opcodeTable, w &&& r.mask ≠ r.pattern) : ∃ e, decodeWord w = .error e := by
  cases hd : decodeWord w with
  | error e => exact ⟨e, rfl⟩
  | ok i =>
    obtain ⟨r, hr, hsel⟩ := row_selects_of_decodeWord hd
    exact absurd hsel (hw r hr)

end Sys2Proof

namespace Sys2Proof.Machine

/-! ### What no instruction writes -/

/-- No instruction writes the keypad, the run state, IR, the slot count, the parameters or the
inputs (10_state section 1). -/
theorem exec_frame {i : Instr} {s t : State} (h : exec i s = .next t) :
    t = { t with
      keypad := s.keypad
      runState := s.runState
      ir := s.ir
      slot := s.slot
      config := s.config
      inputs := s.inputs } := by
  cases i with
  | cls | jp _ | ldImm _ _ | addImm _ _ | ldReg _ _ | orReg _ _ | andReg _ _ | xorReg _ _
  | addReg _ _ | sub _ _ | shr _ _ | subn _ _ | shl _ _ | ldI _ | jpV0 _ | rnd _ _ | ldVxDt _
  | ldDtVx _ | ldStVx _ | addI _ | ldF _ | ldMemVx _ => cases h; rfl
  | seImm _ _ | sneImm _ _ | seReg _ _ | sneReg _ _ => cases h; rw [State.skipIf_eq]
  | ret =>
    rw [exec, execRet] at h
    obtain ⟨-, hp⟩ | ⟨k, -, hp⟩ := pop_cases s <;> rw [hp] at h <;> cases h <;> rfl
  | call nnn =>
    rw [exec, execCall] at h
    obtain ⟨-, hp⟩ | ⟨k, -, hp⟩ := push_cases s s.pc <;> rw [hp] at h <;> cases h <;> rfl
  | drw _ _ _ | ldVxK _ | ldB _ =>
    simp only [exec, execDrw, execLdVxK, execLdB] at h
    split at h <;> cases h <;> rfl
  | skp _ | sknp _ =>
    simp only [exec, execSkp, execSknp] at h
    split at h <;> cases h
    · rfl
    · rw [State.skipIf_eq]
  | ldVxMem _ => cases h; rw [loadRegs_frame]

/-- Executing an instruction leaves IR as the fetch wrote it (R82). -/
theorem exec_ir {i : Instr} {s t : State} (h : exec i s = .next t) : t.ir = s.ir :=
  (congrArg State.ir (exec_frame h) :)

/-! ### IR over one step -/

/-- The end of a step that ran an instruction: a slot more, or nothing kept but FAULT (R151, R166). -/
theorem commit_cases (before after : State) :
    (after.fault = none ∧ before.commit after = { after with slot := after.slot + 1 }) ∨
      ∃ f, after.fault = some f ∧ before.commit after = { before with fault := some f } := by
  obtain hf | ⟨f, hf⟩ := Option.eq_none_or_eq_some after.fault
  · exact .inl ⟨hf, commit_of_none before after hf⟩
  · exact .inr ⟨f, hf, commit_of_some before after f hf⟩

/-- A step that is no instruction slot leaves IR alone, a slot that faults writes FAULT only, and any
other slot leaves in IR the fields of the word it fetched (R82, R151). -/
theorem step_ir_cases {s t : State} (h : step s = .next t) :
    (¬ s.InSlot ∧ t.ir = s.ir) ∨ (∃ f, t = { s with fault := some f }) ∨
      (s.InSlot ∧ t.fault = none ∧ t.ir = Fields.ofWord s.fetchWord) := by
  have committed {u : State} (hslot : s.InSlot) (hu : u.ir = Fields.ofWord s.fetchWord) :
      (∃ f, s.commit u = { s with fault := some f }) ∨
        (s.InSlot ∧ (s.commit u).fault = none ∧ (s.commit u).ir = Fields.ofWord s.fetchWord) := by
    obtain ⟨hf, hc⟩ | ⟨f, -, hc⟩ := commit_cases s u
    · rw [hc]; exact .inr ⟨hslot, hf, hu⟩
    · exact .inl ⟨f, hc⟩
  obtain ⟨-, ⟨hquit, rfl⟩ | ⟨hpaused, rfl⟩ | ⟨-, hfull, rfl⟩ | ⟨-, -, rfl⟩ |
    ⟨hslot, -, i, u, -, hexec, rfl⟩ | ⟨hslot, -, e, -, rfl⟩⟩ := step_cases s t h
  · exact .inl ⟨fun ⟨_, hrun, _⟩ => (nomatch hrun.symm.trans hquit), rfl⟩
  · exact .inl ⟨fun ⟨_, hrun, _⟩ => (nomatch hrun.symm.trans hpaused), by rw [yieldPoint_frame]⟩
  · exact .inl ⟨fun ⟨_, _, hslot⟩ => Nat.not_lt.2 hfull hslot, by rw [endTick_frame]⟩
  · exact .inr (.inl ⟨_, rfl⟩)
  · exact .inr (committed hslot (exec_ir hexec))
  · exact .inr (committed hslot rfl)

/-- Settles O8: the fields of the fetched word are its bit ranges by definition; a step outside a slot
and a faulting step both leave IR alone. -/
theorem instructionRegisterHoldsTheLastFetch :
    Obligations.InstructionRegisterHoldsTheLastFetch := by
  intro s t h
  obtain ⟨hslot, hir⟩ | ⟨f, rfl⟩ | ⟨hslot, hfault, hir⟩ := step_ir_cases h
  · exact ⟨fun ⟨hs, _⟩ => absurd hs hslot, fun _ => hir⟩
  · exact ⟨fun ⟨_, hf⟩ => (nomatch hf), fun _ => rfl⟩
  · rw [hir]
    exact ⟨fun _ => ⟨rfl, rfl, rfl, rfl, rfl, rfl⟩, fun hs => absurd ⟨hslot, hfault⟩ hs⟩

/-! ### An unknown word -/

/-- Settles O9: the word decodes to no instruction, so the step commits the fetch alone. -/
theorem unknownOpcodeIsANoOp : Obligations.UnknownOpcodeIsANoOp := by
  intro s hslot hpc hrow
  obtain ⟨e, he⟩ := decodeWord_error_of_no_row hrow
  have hfault : (s.fetched s.fetchWord).fault = none := hslot.1
  rw [step_inSlot s hslot, instrStep_unknown s e ((fetchable_iff s).2 hpc) he,
    commit_of_none _ _ hfault]
  rfl

end Sys2Proof.Machine

/-! PROOFS. Control transfer without the stack: the one word of an instruction (30_encoding R64), and
the jumps and the immediate skips (41_control_flow R92, R94, R95, R98). -/

namespace Sys2Proof

/-! ### The one word of an instruction -/

/-- Decoding an instruction's word gives the instruction back (R62, R64): the family and the fields
that the decoder looks at are those its format was put together from. -/
theorem decodeWord_encode (i : Instr) : decodeWord (encode i) = .ok i := by
  cases i with
  | cls | ret => rfl
  -- format A
  | jp _ | call _ | ldI _ | jpV0 _ => simp [decodeWord, encode, familyOf_formatA, nnn_formatA]
  -- format I, NN an operand or given
  | seImm _ _ | sneImm _ _ | ldImm _ _ | addImm _ _ | rnd _ _ | skp _ | sknp _ | ldVxK _ | ldVxDt _
  | ldDtVx _ | ldStVx _ | addI _ | ldF _ | ldB _ | ldMemVx _ | ldVxMem _ =>
    simp [decodeWord, encode, familyOf_formatI, x_formatI, nn_formatI]
  -- formats R and D, N given or an operand
  | seReg _ _ | ldReg _ _ | orReg _ _ | andReg _ _ | xorReg _ _ | addReg _ _ | sub _ _ | shr _ _
  | subn _ _ | shl _ _ | sneReg _ _ | drw _ _ _ =>
    simp [decodeWord, encode, familyOf_formatR, x_formatR, y_formatR, n_formatR]

end Sys2Proof

namespace Sys2Proof.Claims

/-- An instruction is read from its own word and no other (R64): decoder and encoder are inverse to
each other. The number of the word is given by the lemma on its format. -/
theorem hasWord_of_encode_toNat {i : Instr} {n : Nat} (hn : (encode i).toNat = n) : HasWord i n := by
  subst hn
  intro w
  constructor
  · intro hw
    rw [encode_of_decodeWord hw]
  · intro hw
    rw [BitVec.eq_of_toNat_eq hw]
    exact decodeWord_encode i

end Sys2Proof.Claims

namespace Sys2Proof.Machine
open Claims

/-! ### The jumps -/

/-- Settles O26: the word by format A; the state by the definition of the jump. -/
theorem jumpLoadsThePc : Obligations.JumpLoadsThePc :=
  fun nnn => ⟨hasWord_of_encode_toNat (formatA_toNat 0x1 nnn), fun _ => rfl⟩

/-- The target of BNNN is exact: a byte and a 12-bit constant cannot carry out of 16 bits (R98). -/
theorem wide8_add_wide12_toNat (b : Byte) (nnn : BitVec 12) :
    (wide8 b + wide12 nnn).toNat = b.toNat + nnn.toNat := by
  have hb : (wide8 b).toNat = b.toNat := BitVec.toNat_setWidth_of_le (by decide)
  have hn : (wide12 nnn).toNat = nnn.toNat := BitVec.toNat_setWidth_of_le (by decide)
  rw [BitVec.toNat_add_of_lt (by omega), hb, hn]

/-- Settles O31: the word by format A; the target is the 16-bit sum, which is exact. -/
theorem jumpWithOffsetAddsV0 : Obligations.JumpWithOffsetAddsV0 :=
  fun nnn => ⟨hasWord_of_encode_toNat (formatA_toNat 0xB nnn), fun s =>
    ⟨wide8 s.v[0] + wide12 nnn, wide8_add_wide12_toNat s.v[0] nnn, rfl⟩⟩

/-! ### The immediate skips -/

section
variable (s : State) (p : Prop) [Decidable p]

theorem State.skipIf_decide :
    s.skipIf (decide p) = { s with pc := if p then s.pc + 2 else s.pc } := by
  simp only [State.skipIf_eq, decide_eq_true_eq]

theorem State.skipIf_decide_not :
    s.skipIf (decide ¬p) = { s with pc := if p then s.pc else s.pc + 2 } := by
  rw [State.skipIf_decide, ite_not]

end

/-- Settles O29: the words by format I; each skip by its rule, the condition negated for 4XNN. -/
theorem immediateSkips : Obligations.ImmediateSkips := by
  intro x nn
  refine ⟨hasWord_of_encode_toNat (formatI_toNat 0x3 x nn),
    hasWord_of_encode_toNat (formatI_toNat 0x4 x nn), fun s => ⟨?_, ?_⟩⟩
  · exact congrArg Host.Outcome.next (s.skipIf_decide (s.v[x] = nn))
  · exact congrArg Host.Outcome.next (s.skipIf_decide_not (s.v[x] = nn))

end Sys2Proof.Machine

/-! PROOFS. Arithmetic and logic: the word of a register format instruction (30_encoding R64), and the
instructions that write V[X] and no flag (42_alu R101 to R106). -/

namespace Sys2Proof.Claims

/-- The word of a format R instruction in the form of R64: the row's pattern, which holds the family
and N, plus the two register fields. -/
theorem hasWord_of_formatR {i : Instr} {x y : Reg} (f n : BitVec 4) (h : encode i = formatR f x y n) :
    HasWord i (f.toNat * 4096 + n.toNat + x.val * 256 + y.val * 16) := by
  apply hasWord_of_encode_toNat
  rw [h, formatR_toNat]
  omega

end Sys2Proof.Claims

namespace Sys2Proof.Machine
open Claims

/-- Settles O32: the words by format I; the byte of 7XNN is the 8-bit sum, whose number is the sum
modulo 256. -/
theorem immediateLoadAndAdd : Obligations.ImmediateLoadAndAdd := by
  intro x nn
  refine ⟨hasWord_of_encode_toNat (formatI_toNat 0x6 x nn),
    hasWord_of_encode_toNat (formatI_toNat 0x7 x nn), fun s => ⟨?load, ?add⟩⟩
  case load => rfl
  case add => exact ⟨s.v[x] + nn, BitVec.toNat_add s.v[x] nn, rfl⟩

/-- Settles O33: the words by format R; each state by the definition of its instruction, one
register write. -/
theorem copyAndLogicWriteOneRegister : Obligations.CopyAndLogicWriteOneRegister :=
  fun _ _ => ⟨hasWord_of_formatR 0x8 0x0 rfl, hasWord_of_formatR 0x8 0x1 rfl,
    hasWord_of_formatR 0x8 0x2 rfl, hasWord_of_formatR 0x8 0x3 rfl,
    fun _ => ⟨rfl, rfl, rfl, rfl⟩⟩

end Sys2Proof.Machine

/-! PROOFS. The index register: the word of an instruction with one register and NN given (30_encoding
R64), the operations that set I as numbers, and the instructions that do (43_index_memory R121 to
R123). -/

namespace Sys2Proof.Claims

/-- The word of a format I instruction in the form of R64: the row's pattern, which holds the family
and NN, plus the register field. -/
theorem hasWord_of_formatI {i : Instr} {x : Reg} (f : BitVec 4) (nn : Byte)
    (h : encode i = formatI f x nn) : HasWord i (f.toNat * 4096 + nn.toNat + x.val * 256) := by
  apply hasWord_of_encode_toNat
  rw [h, formatI_toNat]
  omega

end Sys2Proof.Claims

namespace Sys2Proof.Machine
open Claims

/-! ### The values of I as numbers -/

theorem wide12_toNat (nnn : BitVec 12) : (wide12 nnn).toNat = nnn.toNat :=
  BitVec.toNat_setWidth_of_le (by decide)

theorem wide8_toNat (b : Byte) : (wide8 b).toNat = b.toNat :=
  BitVec.toNat_setWidth_of_le (by decide)

/-- The mask of R122 is the remainder by 4096. -/
theorem and_0x0FFF_toNat (a : Word) : (a &&& 0x0FFF).toNat = a.toNat % 4096 := by
  rw [BitVec.toNat_and]
  exact Nat.and_two_pow_sub_one_eq_mod a.toNat 12

/-- A carry out of the 16-bit sum is lost to the mask too, since 4096 divides 65536 (R122). -/
theorem indexSum_toNat (a : Word) (b : Byte) :
    ((a + wide8 b) &&& 0x0FFF).toNat = (a.toNat + b.toNat) % 4096 := by
  rw [and_0x0FFF_toNat, BitVec.toNat_add, wide8_toNat]
  exact Nat.mod_mod_of_dvd _ (by decide)

/-- The glyph address of R123 is exact: five times a byte fits in 16 bits. -/
theorem glyphAddress_toNat (b : Byte) : (wide8 b * 5).toNat = b.toNat * 5 := by
  rw [BitVec.toNat_mul, wide8_toNat]
  exact Nat.mod_eq_of_lt (by change b.toNat * 5 < 65536; omega)

/-! ### The instructions -/

/-- Settles O40: the words by formats A and I; each instruction sets I and nothing else by its
definition, to a value whose number the lemma on that value gives. -/
theorem indexLoads : Obligations.IndexLoads := by
  refine ⟨fun nnn => ⟨hasWord_of_encode_toNat (formatA_toNat 0xA nnn), fun s => ?load⟩,
    fun x => ⟨hasWord_of_formatI 0xF 0x1E rfl, hasWord_of_formatI 0xF 0x29 rfl,
      fun s => ⟨?add, ?glyph⟩⟩⟩
  case load => exact ⟨wide12 nnn, wide12_toNat nnn, rfl⟩
  case add => exact ⟨(s.i + wide8 s.v[x]) &&& 0x0FFF, indexSum_toNat s.i s.v[x], rfl⟩
  case glyph => exact ⟨wide8 s.v[x] * 5, glyphAddress_toNat s.v[x], rfl⟩

end Sys2Proof.Machine

/-! PROOFS. The display: 00E0 (44_display R131). -/

namespace Sys2Proof.Machine
open Claims

/-- 00E0 replaces the display by the blank one and writes no other field (R131). -/
theorem exec_cls (s : State) : exec .cls s = .next { s with display := blankDisplay } := rfl

/-- Settles O45: the word is the constant the encoder gives; every cell of the blank display is off. -/
theorem clearScreenBlanksEveryCell : Obligations.ClearScreenBlanksEveryCell :=
  ⟨hasWord_of_encode_toNat rfl,
    fun s => ⟨_, exec_cls s, rfl, fun y x _ _ => cellAt_blank y x⟩⟩

end Sys2Proof.Machine

/-! PROOFS. Timer access: FX07, FX15 and FX18 (45_keypad_timers R144 to R146). -/

namespace Sys2Proof.Machine
open Claims

section
variable (x : Reg) (s : State)

/-- FX07 writes V[X] and no other field (R144). -/
theorem exec_ldVxDt : exec (.ldVxDt x) s = .next { s with v := s.v.set x s.dt } := rfl

/-- FX15 writes DT and no other field (R145). -/
theorem exec_ldDtVx : exec (.ldDtVx x) s = .next { s with dt := s.v[x] } := rfl

/-- FX18 writes ST and no other field (R146). -/
theorem exec_ldStVx : exec (.ldStVx x) s = .next { s with st := s.v[x] } := rfl

end

/-- Settles O50: the words by format I; each state by the rule of its instruction. -/
theorem timerAccess : Obligations.TimerAccess := fun x =>
  ⟨hasWord_of_formatI 0xF 0x07 rfl, hasWord_of_formatI 0xF 0x15 rfl, hasWord_of_formatI 0xF 0x18 rfl,
    fun s => ⟨exec_ldVxDt x s, exec_ldDtVx x s, exec_ldStVx x s⟩⟩

end Sys2Proof.Machine

/-! PROOFS. The timer decrement (60_exceptions R164): what each instruction and each step does to DT
and ST. -/

namespace Sys2Proof.Machine

/-! ### The decrement and the two ends of a tick -/

/-- A decremented timer in the form of R164: one lower while above 0, and 0 at 0. -/
theorem decrementTimer_toNat_eq_ite (t : Byte) :
    (decrementTimer t).toNat = if 0 < t.toNat then t.toNat - 1 else 0 := by
  rw [decrementTimer_toNat]
  split_ifs <;> omega

@[simp] theorem endTick_dt (s : State) : s.endTick.dt = decrementTimer s.dt := by
  rw [endTick_frame]

@[simp] theorem endTick_st (s : State) : s.endTick.st = decrementTimer s.st := by
  rw [endTick_frame]

@[simp] theorem yieldPoint_dt (s : State) : s.yieldPoint.dt = s.dt := by
  rw [yieldPoint_frame]

@[simp] theorem yieldPoint_st (s : State) : s.yieldPoint.st = s.st := by
  rw [yieldPoint_frame]

/-! ### The timers over one instruction and over one step -/

/-- FX15 writes DT and nothing else, FX18 writes ST and nothing else, and every other instruction
leaves both timers alone (10_state R17). -/
theorem exec_timer_cases {i : Instr} {s t : State} (h : exec i s = .next t) :
    (t.dt = s.dt ∧ t.st = s.st) ∨ (∃ x, i = .ldDtVx x ∧ t = { s with dt := s.v[x] }) ∨
      ∃ x, i = .ldStVx x ∧ t = { s with st := s.v[x] } := by
  cases i with
  | ldDtVx x => rw [exec_ldDtVx] at h; cases h; exact .inr (.inl ⟨x, rfl, rfl⟩)
  | ldStVx x => rw [exec_ldStVx] at h; cases h; exact .inr (.inr ⟨x, rfl, rfl⟩)
  | cls | jp _ | ldImm _ _ | addImm _ _ | ldReg _ _ | orReg _ _ | andReg _ _ | xorReg _ _
  | addReg _ _ | sub _ _ | shr _ _ | subn _ _ | shl _ _ | ldI _ | jpV0 _ | rnd _ _ | ldVxDt _
  | addI _ | ldF _ | ldMemVx _ => cases h; exact .inl ⟨rfl, rfl⟩
  | seImm _ _ | sneImm _ _ | seReg _ _ | sneReg _ _ =>
    cases h
    rw [State.skipIf_eq]
    exact .inl ⟨rfl, rfl⟩
  | ret =>
    rw [exec, execRet] at h
    obtain ⟨-, hp⟩ | ⟨_, -, hp⟩ := pop_cases s <;> rw [hp] at h <;> cases h <;>
      exact .inl ⟨rfl, rfl⟩
  | call nnn =>
    rw [exec, execCall] at h
    obtain ⟨-, hp⟩ | ⟨_, -, hp⟩ := push_cases s s.pc <;> rw [hp] at h <;> cases h <;>
      exact .inl ⟨rfl, rfl⟩
  | drw _ _ _ | ldVxK _ | ldB _ =>
    simp only [exec, execDrw, execLdVxK, execLdB] at h
    split at h <;> cases h <;> exact .inl ⟨rfl, rfl⟩
  | skp _ | sknp _ =>
    simp only [exec, execSkp, execSknp] at h
    split at h <;> cases h
    · exact .inl ⟨rfl, rfl⟩
    · rw [State.skipIf_eq]
      exact .inl ⟨rfl, rfl⟩
  | ldVxMem _ =>
    cases h
    rw [loadRegs_frame]
    exact .inl ⟨rfl, rfl⟩

/-- A step leaves both timers alone, is the end of a RUNNING tick, or runs FX15 or FX18, which loads
its one timer from V[X] (R145, R146, R164). -/
theorem step_timer_cases {s t : State} (h : step s = .next t) :
    (t.dt = s.dt ∧ t.st = s.st) ∨ (s.config.ipt ≤ s.slot ∧ t = s.endTick) ∨
      (∃ x, decodeWord s.fetchWord = .ok (.ldDtVx x) ∧ t.dt = s.v[x] ∧ t.st = s.st) ∨
      ∃ x, decodeWord s.fetchWord = .ok (.ldStVx x) ∧ t.dt = s.dt ∧ t.st = s.v[x] := by
  obtain ⟨-, ⟨-, rfl⟩ | ⟨-, rfl⟩ | ⟨-, hfull, rfl⟩ | ⟨-, -, rfl⟩ |
    ⟨-, -, i, u, hdecode, hexec, rfl⟩ | ⟨-, -, e, -, rfl⟩⟩ := step_cases s t h
  · exact .inl ⟨rfl, rfl⟩
  · exact .inl ⟨yieldPoint_dt s, yieldPoint_st s⟩
  · exact .inr (.inl ⟨hfull, rfl⟩)
  · exact .inl ⟨rfl, rfl⟩
  · obtain ⟨-, hc⟩ | ⟨f, -, hc⟩ := commit_cases s u <;> rw [hc]
    · obtain ⟨hdt, hst⟩ | ⟨x, rfl, rfl⟩ | ⟨x, rfl, rfl⟩ := exec_timer_cases hexec
      · exact .inl ⟨hdt, hst⟩
      · exact .inr (.inr (.inl ⟨x, hdecode, rfl, rfl⟩))
      · exact .inr (.inr (.inr ⟨x, hdecode, rfl, rfl⟩))
    · exact .inl ⟨rfl, rfl⟩
  · obtain ⟨-, hc⟩ | ⟨f, -, hc⟩ := commit_cases s (s.fetched s.fetchWord) <;> rw [hc] <;>
      exact .inl ⟨rfl, rfl⟩

/-- Settles O13: the two ends of a tick by their frames; in a slot the step is no tick end, so a
timer that changed was loaded by its own instruction. -/
theorem timersDecrementOncePerRunningTick : Obligations.TimersDecrementOncePerRunningTick := by
  refine ⟨fun s hf hr hfull => ⟨s.endTick, step_tickEnd s hf hr hfull, ?dt, ?st⟩,
    fun s hf hp => ⟨s.yieldPoint, step_paused s hf hp, yieldPoint_dt s, yieldPoint_st s⟩, ?slot⟩
  case dt => rw [endTick_dt, decrementTimer_toNat_eq_ite]
  case st => rw [endTick_st, decrementTimer_toNat_eq_ite]
  case slot =>
    intro s t ⟨_, _, hslot⟩ h
    obtain ⟨hdt, hst⟩ | ⟨hfull, -⟩ | ⟨x, hd, hdt, hst⟩ | ⟨x, hd, hdt, hst⟩ := step_timer_cases h
    · exact ⟨fun hne => absurd hdt hne, fun hne => absurd hst hne⟩
    · exact absurd hslot (Nat.not_lt.2 hfull)
    · exact ⟨fun _ => ⟨x, hd, hdt⟩, fun hne => absurd hst hne⟩
    · exact ⟨fun hne => absurd hdt hne, fun _ => ⟨x, hd, hst⟩⟩

end Sys2Proof.Machine

/-! PROOFS. The decoder, the encoder and the opcode map held against each other (30_encoding R60 to
R66). -/

namespace Sys2Proof

/-! ### The bytes of an instruction -/

/-- Settles O2: the two bytes join to the instruction's word, which decodes to the instruction. -/
theorem decodeOfEncodeIsTheInstruction : Obligations.DecodeOfEncodeIsTheInstruction := by
  intro i rest _
  simp [encodeBytes, decodeBytes, decodeWord_encode]

/-- Settles O3, by the family of the word. -/
theorem encodeOfDecodedWordIsTheWord : Obligations.EncodeOfDecodedWordIsTheWord :=
  fun _ _ => encode_of_decodeWord

/-- Settles O1: the sample words, one by one. -/
theorem sampleWordsDecode : Obligations.SampleWordsDecode := by
  unfold Obligations.SampleWordsDecode
  decide

/-- A word decodes to an instruction exactly when it is the instruction's word (R64). -/
theorem decodeWord_eq_ok_iff {w : Word} {i : Instr} : decodeWord w = .ok i ↔ encode i = w :=
  ⟨encode_of_decodeWord, fun h => h ▸ decodeWord_encode i⟩

/-- The decoder's only rejection of a word is as an unknown opcode (R66). -/
theorem decodeWord_error_eq {w : Word} {e : DecodeReject} (h : decodeWord w = .error e) :
    e = .unknownOpcode w := by
  unfold decodeWord at h
  dsimp only at h
  split at h
  -- families with a sub-discriminant
  case h_1 | h_6 | h_9 | h_10 | h_15 | h_16 => split at h <;> cases h; rfl
  -- no family
  case h_17 => cases h; rfl
  -- families with one instruction
  all_goals cases h

/-! ### A word that a row selects is a word of the row's format -/

section
variable {w : Word} {f : BitVec 4}

/-- Where a mask is all ones, the masked word has the bits of the word. -/
theorem extract_of_masked {mask pattern : Word} (h : w &&& mask = pattern) (s l : Nat)
    (hmask : mask.extractLsb' s l = BitVec.allOnes l) :
    w.extractLsb' s l = pattern.extractLsb' s l := by
  rw [← h, BitVec.extractLsb'_and, hmask, BitVec.and_allOnes]

theorem formatA_of_masked (h : w &&& 0xF000 = formatA f 0) : formatA f (w.extractLsb' 0 12) = w :=
  formatA_of_fields ((congrArg BitVec.toNat (extract_of_masked h 12 4 rfl)).trans
    (familyOf_formatA f 0))

theorem formatI_of_masked (h : w &&& 0xF000 = formatI f 0 0) :
    formatI f (w.extractLsb' 8 4).toFin (w.extractLsb' 0 8) = w :=
  formatI_of_fields ((congrArg BitVec.toNat (extract_of_masked h 12 4 rfl)).trans
    (familyOf_formatI f 0 0)) rfl

/-- Format U: format I with NN given. -/
theorem formatU_of_masked {nn : Byte} (h : w &&& 0xF0FF = formatI f 0 nn) :
    formatI f (w.extractLsb' 8 4).toFin nn = w :=
  formatI_of_fields ((congrArg BitVec.toNat (extract_of_masked h 12 4 rfl)).trans
    (familyOf_formatI f 0 nn))
    (congrArg BitVec.toNat ((extract_of_masked h 0 8 rfl).trans (nn_formatI f 0 nn)))

theorem formatR_of_masked {n : BitVec 4} (h : w &&& 0xF00F = formatR f 0 0 n) :
    formatR f (w.extractLsb' 8 4).toFin (w.extractLsb' 4 4).toFin n = w :=
  formatR_of_fields ((congrArg BitVec.toNat (extract_of_masked h 12 4 rfl)).trans
    (familyOf_formatR f 0 0 n))
    (congrArg BitVec.toNat ((extract_of_masked h 0 4 rfl).trans (n_formatR f 0 0 n)))

/-- Format D: format R with N an operand. -/
theorem formatD_of_masked (h : w &&& 0xF000 = formatR f 0 0 0) :
    formatR f (w.extractLsb' 8 4).toFin (w.extractLsb' 4 4).toFin (w.extractLsb' 0 4) = w :=
  formatR_of_fields ((congrArg BitVec.toNat (extract_of_masked h 12 4 rfl)).trans
    (familyOf_formatR f 0 0 0)) rfl

end

/-- A word that a row selects is the word of an instruction of that row (R64): the row's format put
together from the fields of the word. -/
theorem exists_encode_of_row {w : Word} {k : Nat} {r : OpcodeRow} (hr : opcodeTable[k]? = some r)
    (hw : w &&& r.mask = r.pattern) : ∃ i, encode i = w ∧ rowIndex i = k := by
  match k, hr with
  -- the whole word given
  | 0, rfl => exact ⟨.cls, (BitVec.and_allOnes (x := w) ▸ hw).symm, rfl⟩
  | 1, rfl => exact ⟨.ret, (BitVec.and_allOnes (x := w) ▸ hw).symm, rfl⟩
  -- format A
  | 2, rfl => exact ⟨.jp _, formatA_of_masked hw, rfl⟩
  | 3, rfl => exact ⟨.call _, formatA_of_masked hw, rfl⟩
  | 19, rfl => exact ⟨.ldI _, formatA_of_masked hw, rfl⟩
  | 20, rfl => exact ⟨.jpV0 _, formatA_of_masked hw, rfl⟩
  -- format I
  | 4, rfl => exact ⟨.seImm _ _, formatI_of_masked hw, rfl⟩
  | 5, rfl => exact ⟨.sneImm _ _, formatI_of_masked hw, rfl⟩
  | 7, rfl => exact ⟨.ldImm _ _, formatI_of_masked hw, rfl⟩
  | 8, rfl => exact ⟨.addImm _ _, formatI_of_masked hw, rfl⟩
  | 21, rfl => exact ⟨.rnd _ _, formatI_of_masked hw, rfl⟩
  -- format R
  | 6, rfl => exact ⟨.seReg _ _, formatR_of_masked hw, rfl⟩
  | 9, rfl => exact ⟨.ldReg _ _, formatR_of_masked hw, rfl⟩
  | 10, rfl => exact ⟨.orReg _ _, formatR_of_masked hw, rfl⟩
  | 11, rfl => exact ⟨.andReg _ _, formatR_of_masked hw, rfl⟩
  | 12, rfl => exact ⟨.xorReg _ _, formatR_of_masked hw, rfl⟩
  | 13, rfl => exact ⟨.addReg _ _, formatR_of_masked hw, rfl⟩
  | 14, rfl => exact ⟨.sub _ _, formatR_of_masked hw, rfl⟩
  | 15, rfl => exact ⟨.shr _ _, formatR_of_masked hw, rfl⟩
  | 16, rfl => exact ⟨.subn _ _, formatR_of_masked hw, rfl⟩
  | 17, rfl => exact ⟨.shl _ _, formatR_of_masked hw, rfl⟩
  | 18, rfl => exact ⟨.sneReg _ _, formatR_of_masked hw, rfl⟩
  -- format D
  | 22, rfl => exact ⟨.drw _ _ _, formatD_of_masked hw, rfl⟩
  -- format U
  | 23, rfl => exact ⟨.skp _, formatU_of_masked hw, rfl⟩
  | 24, rfl => exact ⟨.sknp _, formatU_of_masked hw, rfl⟩
  | 25, rfl => exact ⟨.ldVxK _, formatU_of_masked hw, rfl⟩
  | 26, rfl => exact ⟨.ldVxDt _, formatU_of_masked hw, rfl⟩
  | 27, rfl => exact ⟨.ldDtVx _, formatU_of_masked hw, rfl⟩
  | 28, rfl => exact ⟨.ldStVx _, formatU_of_masked hw, rfl⟩
  | 29, rfl => exact ⟨.addI _, formatU_of_masked hw, rfl⟩
  | 30, rfl => exact ⟨.ldF _, formatU_of_masked hw, rfl⟩
  | 31, rfl => exact ⟨.ldB _, formatU_of_masked hw, rfl⟩
  | 32, rfl => exact ⟨.ldMemVx _, formatU_of_masked hw, rfl⟩
  | 33, rfl => exact ⟨.ldVxMem _, formatU_of_masked hw, rfl⟩

/-- A row selects exactly the words that decode to an instruction of the row (R64). -/
theorem row_selects_iff {w : Word} {k : Nat} {r : OpcodeRow} (hr : opcodeTable[k]? = some r) :
    w &&& r.mask = r.pattern ↔ ∃ i, decodeWord w = .ok i ∧ rowIndex i = k := by
  simp only [decodeWord_eq_ok_iff]
  constructor
  · exact exists_encode_of_row hr
  · rintro ⟨i, rfl, rfl⟩
    obtain ⟨q, hq, hsel⟩ := ownRow_selects i
    obtain rfl : q = r := Option.some.inj (hq.symm.trans hr)
    exact beq_iff_eq.1 hsel

/-- Settles O4: the rows by `row_selects_iff`, from which the other two clauses follow, since a word
decodes to one instruction at most and an instruction has one row. -/
theorem wordsDecodeByTheRowsOfTheOpcodeMap : Obligations.WordsDecodeByTheRowsOfTheOpcodeMap := by
  refine ⟨fun w k r => row_selects_iff,
    fun w => ⟨fun hnone => ?rejected, fun herr r hr hw => ?selected⟩,
    fun w j k q r hq hr hwq hwr => ?disjoint⟩
  case rejected =>
    obtain ⟨e, he⟩ := decodeWord_error_of_no_row hnone
    rwa [decodeWord_error_eq he] at he
  case selected =>
    obtain ⟨k, hk⟩ := List.mem_iff_getElem?.1 hr
    obtain ⟨i, hi, -⟩ := (row_selects_iff hk).1 hw
    rw [herr] at hi
    cases hi
  case disjoint =>
    obtain ⟨i, hi, rfl⟩ := (row_selects_iff hq).1 hwq
    obtain ⟨i', hi', rfl⟩ := (row_selects_iff hr).1 hwr
    rw [hi] at hi'
    cases hi'
    rfl

end Sys2Proof

/-! PROOFS. What one instruction writes: the instructions with more than one outcome, each said once
by its cases; then, over the whole instruction set, the units of state that an instruction writes
(10_state section 1). -/

namespace Sys2Proof.Machine
open Claims

/-! ### Instructions with more than one outcome -/

section
variable (s : State)

/-- 00EE on an empty stack (R154). -/
theorem exec_ret_empty (h : s.sp = 0) :
    exec .ret s = .next { s with fault := some .stackUnderflow } := by
  rw [exec, execRet, pop_empty s h, raise]

/-- 00EE with k + 1 entries held (R91). -/
theorem exec_ret_held (k : Fin 16) (h : s.sp = k.succ) :
    exec .ret s = .next { s with sp := k.castSucc, pc := s.stack[k] } := by
  rw [exec, execRet, pop_at s k h]
  rfl

theorem exec_ret_cases :
    (s.sp = 0 ∧ exec .ret s = .next { s with fault := some .stackUnderflow }) ∨
      ∃ k : Fin 16, s.sp = k.succ ∧
        exec .ret s = .next { s with sp := k.castSucc, pc := s.stack[k] } := by
  obtain h | ⟨k, hk⟩ := Fin.eq_zero_or_eq_succ s.sp
  · exact .inl ⟨h, exec_ret_empty s h⟩
  · exact .inr ⟨k, hk, exec_ret_held s k hk⟩

/-- 2NNN on a full stack (R153). -/
theorem exec_call_full (nnn : BitVec 12) (h : s.sp = 16) :
    exec (.call nnn) s = .next { s with fault := some .stackOverflow } := by
  rw [exec, execCall, push_full s s.pc h, raise]

/-- 2NNN with k < 16 entries held (R93). -/
theorem exec_call_held (nnn : BitVec 12) (k : Fin 16) (h : s.sp = k.castSucc) :
    exec (.call nnn) s =
      .next { s with stack := s.stack.set k s.pc, sp := k.succ, pc := wide12 nnn } := by
  rw [exec, execCall, push_at s s.pc k h]
  rfl

theorem exec_call_cases (nnn : BitVec 12) :
    (s.sp = 16 ∧ exec (.call nnn) s = .next { s with fault := some .stackOverflow }) ∨
      ∃ k : Fin 16, s.sp = k.castSucc ∧ exec (.call nnn) s =
        .next { s with stack := s.stack.set k s.pc, sp := k.succ, pc := wide12 nnn } := by
  obtain ⟨k, hk⟩ | h := Fin.eq_castSucc_or_eq_last s.sp
  · exact .inr ⟨k, hk, exec_call_held s nnn k hk⟩
  · exact .inl ⟨h, exec_call_full s nnn h⟩

/-- The rows that DXYN draws (R132). -/
def State.spriteRows (y : Reg) (n : BitVec 4) : Nat := drawnRows n (startRow s y)

/-- The display that DXYN leaves, and the collision (R132). -/
def State.drawn (x y : Reg) (n : BitVec 4) : Display × Bool :=
  drawSprite s.mem (s.ea 0) (startColumn s x) (startRow s y) (s.spriteRows y n) s.display

/-- DXYN with a drawn row beyond memory (R155). -/
theorem exec_drw_beyond (x y : Reg) (n : BitVec 4)
    (h : spriteOutOfRange s (s.spriteRows y n) = true) :
    exec (.drw x y n) s = .next { s with fault := some .spriteReadOutOfRange } :=
  if_pos h

/-- DXYN with every drawn row in memory (R132). -/
theorem exec_drw_inside (x y : Reg) (n : BitVec 4)
    (h : ¬ spriteOutOfRange s (s.spriteRows y n) = true) :
    exec (.drw x y n) s = .next { s with
      v := s.v.set 15 (collisionFlag (s.drawn x y n).2)
      display := (s.drawn x y n).1 } :=
  if_neg h

theorem exec_drw_cases (x y : Reg) (n : BitVec 4) :
    (spriteOutOfRange s (s.spriteRows y n) = true ∧
      exec (.drw x y n) s = .next { s with fault := some .spriteReadOutOfRange }) ∨
    (¬ spriteOutOfRange s (s.spriteRows y n) = true ∧ exec (.drw x y n) s = .next { s with
      v := s.v.set 15 (collisionFlag (s.drawn x y n).2)
      display := (s.drawn x y n).1 }) := by
  by_cases h : spriteOutOfRange s (s.spriteRows y n) = true
  · exact .inl ⟨h, exec_drw_beyond s x y n h⟩
  · exact .inr ⟨h, exec_drw_inside s x y n h⟩

/-- FX33 with I + 2 beyond memory (R156). -/
theorem exec_ldB_beyond (x : Reg) (h : 0xFFF < s.ea 2) :
    exec (.ldB x) s = .next { s with fault := some .bcdWriteOutOfRange } :=
  if_pos h

/-- FX33 with all three bytes in memory (R124). -/
theorem exec_ldB_inside (x : Reg) (h : s.ea 2 ≤ 0xFFF) :
    exec (.ldB x) s =
      .next { s with mem := Memory.writeBytes s.mem (s.ea 0) (bcdDigits s.v[x]) } :=
  if_neg (Nat.not_lt.2 h)

theorem exec_ldB_cases (x : Reg) :
    (0xFFF < s.ea 2 ∧ exec (.ldB x) s = .next { s with fault := some .bcdWriteOutOfRange }) ∨
      (s.ea 2 ≤ 0xFFF ∧ exec (.ldB x) s =
        .next { s with mem := Memory.writeBytes s.mem (s.ea 0) (bcdDigits s.v[x]) }) := by
  obtain h | h := Nat.lt_or_ge 0xFFF (s.ea 2)
  · exact .inl ⟨h, exec_ldB_beyond s x h⟩
  · exact .inr ⟨h, exec_ldB_inside s x h⟩

/-- A skip on a condition that is not met. -/
theorem State.skipIf_not (c : Bool) :
    s.skipIf (!c) = { s with pc := if c = true then s.pc else s.pc + 2 } := by
  cases c <;> rfl

/-- EX9E with V[X] no key (R157). -/
theorem exec_skp_noKey (x : Reg) (h : 15 < s.v[x].toNat) :
    exec (.skp x) s = .next { s with fault := some .keyIndexOutOfRange } := by
  rw [exec, execSkp, (keyOf_eq_none (s.getV x)).2 h]
  rfl

/-- EX9E with V[X] the key `k` (R141). -/
theorem exec_skp_key (x k : Reg) (h : s.v[x].toNat = k.val) :
    exec (.skp x) s = .next { s with pc := if s.keypad[k] = true then s.pc + 2 else s.pc } := by
  rw [exec, execSkp, (keyOf_eq_some (s.getV x) k).2 h]
  exact congrArg Host.Outcome.next (s.skipIf_eq s.keypad[k])

/-- EXA1 with V[X] no key (R157). -/
theorem exec_sknp_noKey (x : Reg) (h : 15 < s.v[x].toNat) :
    exec (.sknp x) s = .next { s with fault := some .keyIndexOutOfRange } := by
  rw [exec, execSknp, (keyOf_eq_none (s.getV x)).2 h]
  rfl

/-- EXA1 with V[X] the key `k` (R142). -/
theorem exec_sknp_key (x k : Reg) (h : s.v[x].toNat = k.val) :
    exec (.sknp x) s = .next { s with pc := if s.keypad[k] = true then s.pc else s.pc + 2 } := by
  rw [exec, execSknp, (keyOf_eq_some (s.getV x) k).2 h]
  exact congrArg Host.Outcome.next (s.skipIf_not s.keypad[k])

/-- A byte numbers a key, or is above 15 (R140). -/
theorem keyNumber_cases (b : Byte) : 15 < b.toNat ∨ ∃ k : Reg, b.toNat = k.val := by
  obtain h | h := Nat.lt_or_ge 15 b.toNat
  · exact .inl h
  · exact .inr ⟨⟨b.toNat, by omega⟩, rfl⟩

/-- FX0A with no key down (R143). -/
theorem exec_ldVxK_none (x : Reg) (h : s.config.pick s.keypad = none) :
    exec (.ldVxK x) s = .next { s with pc := s.pc - 2 } := by
  rw [exec, execLdVxK, h]
  rfl

/-- FX0A with the key `k` reported (R143). -/
theorem exec_ldVxK_some (x k : Reg) (h : s.config.pick s.keypad = some k) :
    exec (.ldVxK x) s = .next { s with v := s.v.set x (BitVec.ofNat 8 k.val) } := by
  rw [exec, execLdVxK, h]
  rfl

/-- 3XNN (R94). -/
theorem exec_seImm (x : Reg) (nn : Byte) :
    exec (.seImm x nn) s = .next { s with pc := if s.v[x] = nn then s.pc + 2 else s.pc } :=
  congrArg Host.Outcome.next (s.skipIf_decide (s.v[x] = nn))

/-- 4XNN (R95). -/
theorem exec_sneImm (x : Reg) (nn : Byte) :
    exec (.sneImm x nn) s = .next { s with pc := if s.v[x] = nn then s.pc else s.pc + 2 } :=
  congrArg Host.Outcome.next (s.skipIf_decide_not (s.v[x] = nn))

/-- 5XY0 (R96). -/
theorem exec_seReg (x y : Reg) :
    exec (.seReg x y) s = .next { s with pc := if s.v[x] = s.v[y] then s.pc + 2 else s.pc } :=
  congrArg Host.Outcome.next (s.skipIf_decide (s.v[x] = s.v[y]))

/-- 9XY0 (R97). -/
theorem exec_sneReg (x y : Reg) :
    exec (.sneReg x y) s = .next { s with pc := if s.v[x] = s.v[y] then s.pc else s.pc + 2 } :=
  congrArg Host.Outcome.next (s.skipIf_decide_not (s.v[x] = s.v[y]))

/-- FX65 (R126). -/
theorem exec_ldVxMem (x : Reg) :
    exec (.ldVxMem x) s = .next { s with v := (loadRegs s x).v } :=
  congrArg Host.Outcome.next (loadRegs_frame s x)

end

/-! ### The units an instruction writes -/

/-- `s` with the units that the rule of `i` names taken from `t` (10_state section 1). -/
def ownUnits (i : Instr) (s t : State) : State :=
  match i with
  | .cls => { s with display := t.display }
  | .ret => { s with pc := t.pc, sp := t.sp, fault := t.fault }
  | .call _ => { s with pc := t.pc, stack := t.stack, sp := t.sp, fault := t.fault }
  | .jp _ | .jpV0 _ | .seImm _ _ | .sneImm _ _ | .seReg _ _ | .sneReg _ _ => { s with pc := t.pc }
  | .skp _ | .sknp _ => { s with pc := t.pc, fault := t.fault }
  | .ldImm _ _ | .addImm _ _ | .ldReg _ _ | .orReg _ _ | .andReg _ _ | .xorReg _ _ | .addReg _ _
  | .sub _ _ | .shr _ _ | .subn _ _ | .shl _ _ | .ldVxDt _ | .ldVxMem _ => { s with v := t.v }
  | .rnd _ _ => { s with v := t.v, draws := t.draws }
  | .drw _ _ _ => { s with v := t.v, display := t.display, fault := t.fault }
  | .ldVxK _ => { s with v := t.v, pc := t.pc }
  | .ldDtVx _ => { s with dt := t.dt }
  | .ldStVx _ => { s with st := t.st }
  | .ldI _ | .addI _ | .ldF _ => { s with i := t.i }
  | .ldB _ => { s with mem := t.mem, fault := t.fault }
  | .ldMemVx _ => { s with mem := t.mem }

/-- An instruction answers a next state in every state, and writes no unit but its own (10_state
section 1). -/
theorem exec_writes (i : Instr) (s : State) : ∃ t, exec i s = .next t ∧ t = ownUnits i s t := by
  cases i with
  | cls | jp _ | ldImm _ _ | addImm _ _ | ldReg _ _ | orReg _ _ | andReg _ _ | xorReg _ _
  | addReg _ _ | sub _ _ | shr _ _ | subn _ _ | shl _ _ | ldI _ | jpV0 _ | rnd _ _ | ldVxDt _
  | ldDtVx _ | ldStVx _ | addI _ | ldF _ | ldMemVx _ => exact ⟨_, rfl, rfl⟩
  | seImm x nn => exact ⟨_, exec_seImm s x nn, rfl⟩
  | sneImm x nn => exact ⟨_, exec_sneImm s x nn, rfl⟩
  | seReg x y => exact ⟨_, exec_seReg s x y, rfl⟩
  | sneReg x y => exact ⟨_, exec_sneReg s x y, rfl⟩
  | ldVxMem x => exact ⟨_, exec_ldVxMem s x, rfl⟩
  | ret => obtain ⟨-, h⟩ | ⟨_, -, h⟩ := exec_ret_cases s <;> exact ⟨_, h, rfl⟩
  | call nnn => obtain ⟨-, h⟩ | ⟨_, -, h⟩ := exec_call_cases s nnn <;> exact ⟨_, h, rfl⟩
  | drw x y n => obtain ⟨-, h⟩ | ⟨-, h⟩ := exec_drw_cases s x y n <;> exact ⟨_, h, rfl⟩
  | ldB x => obtain ⟨-, h⟩ | ⟨-, h⟩ := exec_ldB_cases s x <;> exact ⟨_, h, rfl⟩
  | skp x =>
    obtain h | ⟨k, h⟩ := keyNumber_cases s.v[x]
    · exact ⟨_, exec_skp_noKey s x h, rfl⟩
    · exact ⟨_, exec_skp_key s x k h, rfl⟩
  | sknp x =>
    obtain h | ⟨k, h⟩ := keyNumber_cases s.v[x]
    · exact ⟨_, exec_sknp_noKey s x h, rfl⟩
    · exact ⟨_, exec_sknp_key s x k h, rfl⟩
  | ldVxK x =>
    obtain h | ⟨k, h⟩ := Option.eq_none_or_eq_some (s.config.pick s.keypad)
    · exact ⟨_, exec_ldVxK_none s x h, rfl⟩
    · exact ⟨_, exec_ldVxK_some s x k h, rfl⟩

/-- Settles O10, with what the instruction writes. -/
theorem everyInstructionAnswersANextState : Obligations.EveryInstructionAnswersANextState := by
  intro i s
  obtain ⟨t, ht, -⟩ := exec_writes i s
  exact ⟨t, ht⟩

section
variable {i : Instr} {s t : State} (h : exec i s = .next t)
include h

theorem exec_eq_ownUnits : t = ownUnits i s t := by
  obtain ⟨u, hu, hw⟩ := exec_writes i s
  rw [h] at hu
  cases hu
  exact hw

/-! ### What each unit is written by -/

theorem exec_pc_changed : t.pc ≠ s.pc → MayWritePc i := by
  have hpc : t.pc = (ownUnits i s t).pc := congrArg State.pc (exec_eq_ownUnits h)
  intro hne
  cases i with
  | ret | jp _ | call _ | seImm _ _ | sneImm _ _ | seReg _ _ | sneReg _ _ | jpV0 _ | skp _ | sknp _
  | ldVxK _ => trivial
  | _ => exact hne hpc

theorem exec_mem_changed : t.mem ≠ s.mem → ∃ x, i = .ldB x ∨ i = .ldMemVx x := by
  have hmem : t.mem = (ownUnits i s t).mem := congrArg State.mem (exec_eq_ownUnits h)
  intro hne
  cases i with
  | ldB x => exact ⟨x, .inl rfl⟩
  | ldMemVx x => exact ⟨x, .inr rfl⟩
  | _ => exact absurd hmem hne

theorem exec_display_changed : t.display ≠ s.display → i = .cls ∨ ∃ x y n, i = .drw x y n := by
  have hdisplay : t.display = (ownUnits i s t).display :=
    congrArg State.display (exec_eq_ownUnits h)
  intro hne
  cases i with
  | cls => exact .inl rfl
  | drw x y n => exact .inr ⟨x, y, n, rfl⟩
  | _ => exact absurd hdisplay hne

theorem exec_i_changed : t.i ≠ s.i → (∃ nnn, i = .ldI nnn) ∨ ∃ x, i = .addI x ∨ i = .ldF x := by
  have hi : t.i = (ownUnits i s t).i := congrArg State.i (exec_eq_ownUnits h)
  intro hne
  cases i with
  | ldI nnn => exact .inl ⟨nnn, rfl⟩
  | addI x => exact .inr ⟨x, .inl rfl⟩
  | ldF x => exact .inr ⟨x, .inr rfl⟩
  | _ => exact absurd hi hne

theorem exec_stack_changed : t.stack ≠ s.stack → ∃ nnn, i = .call nnn := by
  have hstack : t.stack = (ownUnits i s t).stack := congrArg State.stack (exec_eq_ownUnits h)
  intro hne
  cases i with
  | call nnn => exact ⟨nnn, rfl⟩
  | _ => exact absurd hstack hne

theorem exec_sp_changed : t.sp ≠ s.sp → i = .ret ∨ ∃ nnn, i = .call nnn := by
  have hsp : t.sp = (ownUnits i s t).sp := congrArg State.sp (exec_eq_ownUnits h)
  intro hne
  cases i with
  | ret => exact .inl rfl
  | call nnn => exact .inr ⟨nnn, rfl⟩
  | _ => exact absurd hsp hne

theorem exec_dt_changed : t.dt ≠ s.dt → ∃ x, i = .ldDtVx x := by
  have hdt : t.dt = (ownUnits i s t).dt := congrArg State.dt (exec_eq_ownUnits h)
  intro hne
  cases i with
  | ldDtVx x => exact ⟨x, rfl⟩
  | _ => exact absurd hdt hne

theorem exec_st_changed : t.st ≠ s.st → ∃ x, i = .ldStVx x := by
  have hst : t.st = (ownUnits i s t).st := congrArg State.st (exec_eq_ownUnits h)
  intro hne
  cases i with
  | ldStVx x => exact ⟨x, rfl⟩
  | _ => exact absurd hst hne

theorem exec_draws_changed : t.draws ≠ s.draws → ∃ x nn, i = .rnd x nn := by
  have hdraws : t.draws = (ownUnits i s t).draws := congrArg State.draws (exec_eq_ownUnits h)
  intro hne
  cases i with
  | rnd x nn => exact ⟨x, nn, rfl⟩
  | _ => exact absurd hdraws hne

theorem exec_fault_changed : t.fault ≠ s.fault →
    i = .ret ∨ (∃ nnn, i = .call nnn) ∨ (∃ x y n, i = .drw x y n) ∨
      ∃ x, i = .ldB x ∨ i = .skp x ∨ i = .sknp x := by
  have hfault : t.fault = (ownUnits i s t).fault := congrArg State.fault (exec_eq_ownUnits h)
  intro hne
  cases i with
  | ret => exact .inl rfl
  | call nnn => exact .inr (.inl ⟨nnn, rfl⟩)
  | drw x y n => exact .inr (.inr (.inl ⟨x, y, n, rfl⟩))
  | ldB x => exact .inr (.inr (.inr ⟨x, .inl rfl⟩))
  | skp x => exact .inr (.inr (.inr ⟨x, .inr (.inl rfl)⟩))
  | sknp x => exact .inr (.inr (.inr ⟨x, .inr (.inr rfl)⟩))
  | _ => exact absurd hfault hne

end

end Sys2Proof.Machine

/-! PROOFS. The rules over the whole instruction set: the registers an instruction writes (10_state
R11), the writers of each unit (10_state section 1), and the units no instruction reads (R19, R20,
R165, R202). -/

namespace Sys2Proof.Machine
open Claims

/-! ### The general registers -/

/-- A register other than the one written keeps its value (R10). -/
theorem reg_set_other (v : Vector Byte 16) {r q : Reg} (b : Byte) (h : q ≠ r) :
    (v.set r b)[q] = v[q] := by
  rw [reg_set, if_neg h]

theorem regs_ext {v w : Vector Byte 16} (h : ∀ r : Reg, v[r] = w[r]) : v = w :=
  Vector.ext fun k hk => h ⟨k, hk⟩

/-- FX65, every register, as the register file holds it (R126). -/
theorem loadRegs_reg (s : State) (x q : Reg) : (loadRegs s x).v[q] =
    if q ≤ x ∧ s.ea q.val ≤ topAddress then s.byteAt (s.ea q.val) else s.v[q] :=
  loadRegs_getV s x q

theorem exec_reg_other {i : Instr} {s t : State} {r : Reg} (h : exec i s = .next t)
    (hr : ¬ MayWriteReg i r) : t.v[r] = s.v[r] := by
  have hv : t.v = (ownUnits i s t).v := congrArg State.v (exec_eq_ownUnits h)
  cases i with
  | ldImm _ _ | addImm _ _ | rnd _ _ | ldReg _ _ | orReg _ _ | andReg _ _ | xorReg _ _
  | ldVxDt _ => cases h; exact reg_set_other _ _ hr
  | addReg _ _ =>
    obtain ⟨hx, hf⟩ := not_or.1 hr
    cases h
    exact (reg_set_other _ _ hf).trans (reg_set_other _ _ hx)
  | sub _ _ | shr _ _ | subn _ _ | shl _ _ =>
    obtain ⟨hx, hf⟩ := not_or.1 hr
    cases h
    exact (reg_set_other _ _ hx).trans (reg_set_other _ _ hf)
  | drw x y n =>
    obtain ⟨-, hx⟩ | ⟨-, hx⟩ := exec_drw_cases s x y n <;> rw [hx] at h <;> cases h
    · rfl
    · exact reg_set_other _ _ hr
  | ldVxK x =>
    obtain hk | ⟨k, hk⟩ := Option.eq_none_or_eq_some (s.config.pick s.keypad)
    · rw [exec_ldVxK_none s x hk] at h
      cases h
      rfl
    · rw [exec_ldVxK_some s x k hk] at h
      cases h
      exact reg_set_other _ _ hr
  | ldVxMem x =>
    rw [exec_ldVxMem] at h
    cases h
    exact (loadRegs_reg s x r).trans (if_neg fun hle => hr hle.1)
  | _ => exact congrArg (·[r]) hv

/-- Settles O51, by the instruction: what its rule names is written, every other register is not. -/
theorem registersChangeOnlyAsDestinationOrFlag :
    Obligations.RegistersChangeOnlyAsDestinationOrFlag :=
  fun _ _ _ _ => exec_reg_other

/-- Settles O52: each unit by its own lemma; V because it changes in a register if at all. -/
theorem eachUnitIsWrittenOnlyByItsInstructions :
    Obligations.EachUnitIsWrittenOnlyByItsInstructions := by
  intro i s t h
  have hv : t.v ≠ s.v → ∃ r, MayWriteReg i r := fun hne => by
    by_contra hnone
    exact hne (regs_ext fun r => exec_reg_other h fun hr => hnone ⟨r, hr⟩)
  have hframe := exec_frame h
  exact ⟨hv, exec_pc_changed h, exec_mem_changed h, exec_display_changed h, exec_i_changed h,
    exec_stack_changed h, exec_sp_changed h, exec_dt_changed h, exec_st_changed h,
    exec_draws_changed h, exec_fault_changed h, (congrArg State.keypad hframe :),
    (congrArg State.runState hframe :), (congrArg State.ir hframe :),
    (congrArg State.slot hframe :), (congrArg State.config hframe :),
    (congrArg State.inputs hframe :)⟩

/-! ### The units no instruction reads -/

/-- `s` with other values in the units that no instruction reads: the tick position, IR, the run
state, the inputs and ST. -/
def withUnread (k : Nat) (f : Fields) (r : RunState) (es : List (List HostEvent)) (b : Byte)
    (s : State) : State :=
  { s with slot := k, ir := f, runState := r, inputs := es, st := b }

/-- FX65 reads the registers, I and memory only (R126). -/
theorem loadRegs_withUnread_v (k : Nat) (f : Fields) (r : RunState) (es : List (List HostEvent))
    (b : Byte) (s : State) (x : Reg) :
    (loadRegs (withUnread k f r es b s) x).v = (loadRegs s x).v :=
  regs_ext fun q => (loadRegs_reg _ x q).trans (loadRegs_reg s x q).symm

/-- An instruction other than FX18 does the same whatever stands in the units that none reads, and
leaves them as they are (R165, R202). -/
theorem exec_withUnread {i : Instr} {s t : State} (k : Nat) (f : Fields) (r : RunState)
    (es : List (List HostEvent)) (b : Byte) (hi : ∀ x, i ≠ .ldStVx x) (h : exec i s = .next t) :
    exec i (withUnread k f r es b s) = .next (withUnread k f r es b t) := by
  cases i with
  | cls | jp _ | ldImm _ _ | addImm _ _ | ldReg _ _ | orReg _ _ | andReg _ _ | xorReg _ _
  | addReg _ _ | sub _ _ | shr _ _ | subn _ _ | shl _ _ | ldI _ | jpV0 _ | rnd _ _ | ldVxDt _
  | ldDtVx _ | addI _ | ldF _ => cases h; rfl
  | ldStVx x => exact absurd rfl (hi x)
  | seImm x nn => rw [exec_seImm] at h ⊢; cases h; rfl
  | sneImm x nn => rw [exec_sneImm] at h ⊢; cases h; rfl
  | seReg x y => rw [exec_seReg] at h ⊢; cases h; rfl
  | sneReg x y => rw [exec_sneReg] at h ⊢; cases h; rfl
  | ldMemVx x => cases h; rfl
  | ldVxMem x =>
    rw [exec_ldVxMem] at h ⊢
    cases h
    rw [loadRegs_withUnread_v]
    rfl
  | ret =>
    obtain ⟨hsp, hx⟩ | ⟨j, hsp, hx⟩ := exec_ret_cases s <;> rw [hx] at h <;> cases h
    · exact exec_ret_empty _ hsp
    · exact exec_ret_held _ j hsp
  | call nnn =>
    obtain ⟨hsp, hx⟩ | ⟨j, hsp, hx⟩ := exec_call_cases s nnn <;> rw [hx] at h <;> cases h
    · exact exec_call_full _ nnn hsp
    · exact exec_call_held _ nnn j hsp
  | drw x y n =>
    obtain ⟨hout, hx⟩ | ⟨hin, hx⟩ := exec_drw_cases s x y n <;> rw [hx] at h <;> cases h
    · exact exec_drw_beyond _ x y n hout
    · exact exec_drw_inside _ x y n hin
  | ldB x =>
    obtain ⟨hout, hx⟩ | ⟨hin, hx⟩ := exec_ldB_cases s x <;> rw [hx] at h <;> cases h
    · exact exec_ldB_beyond _ x hout
    · exact exec_ldB_inside _ x hin
  | skp x =>
    obtain hkey | ⟨j, hkey⟩ := keyNumber_cases s.v[x]
    · rw [exec_skp_noKey s x hkey] at h
      cases h
      exact exec_skp_noKey _ x hkey
    · rw [exec_skp_key s x j hkey] at h
      cases h
      exact exec_skp_key (withUnread k f r es b s) x j hkey
  | sknp x =>
    obtain hkey | ⟨j, hkey⟩ := keyNumber_cases s.v[x]
    · rw [exec_sknp_noKey s x hkey] at h
      cases h
      exact exec_sknp_noKey _ x hkey
    · rw [exec_sknp_key s x j hkey] at h
      cases h
      exact exec_sknp_key (withUnread k f r es b s) x j hkey
  | ldVxK x =>
    obtain hkey | ⟨j, hkey⟩ := Option.eq_none_or_eq_some (s.config.pick s.keypad)
    · rw [exec_ldVxK_none s x hkey] at h
      cases h
      exact exec_ldVxK_none _ x hkey
    · rw [exec_ldVxK_some s x j hkey] at h
      cases h
      exact exec_ldVxK_some _ x j hkey

/-- Settles O53: FX18 by its rule; every other instruction because it reads none of these units,
with ST as it left it or the other units as it left them. -/
theorem instructionsCannotReadTheClockOrTheSoundTimer :
    Obligations.InstructionsCannotReadTheClockOrTheSoundTimer := by
  intro i s t h
  refine ⟨fun k f r es => ?clock, fun b hi => ?sound, fun b x hx => ?load⟩
  case clock =>
    by_cases hi : ∀ x, i ≠ .ldStVx x
    · have hst : t.st = s.st := by
        by_contra hne
        obtain ⟨x, hx⟩ := exec_st_changed h hne
        exact hi x hx
      have ht : withUnread k f r es s.st t =
          { t with slot := k, ir := f, runState := r, inputs := es } := by
        rw [withUnread, ← hst]
      exact (exec_withUnread k f r es s.st hi h).trans (congrArg Host.Outcome.next ht)
    · obtain ⟨x, rfl⟩ := not_forall_not.1 hi
      cases h
      rfl
  case sound =>
    have hunread := exec_withUnread s.slot s.ir s.runState s.inputs b hi h
    rw [exec_frame h] at hunread ⊢
    exact hunread
  case load =>
    subst hx
    cases h
    rfl

end Sys2Proof.Machine

/-! PROOFS. What one step does: the instruction slots by their outcomes (40_fetch_decode_step R80,
R81), the invariant (10_state R25), and the reset state. -/

namespace Sys2Proof.Machine

/-! ### The outcomes of a step -/

/-- A step in an instruction slot raises a fault, which is all it writes, or uses the slot: it
commits an unknown word's fetch, or what the decoded instruction left (R80, R84, R151). -/
theorem step_inSlot_cases {s t : State} (hslot : s.InSlot) (h : step s = .next t) :
    (∃ f, t = { s with fault := some f }) ∨
      ∃ u, u.fault = none ∧ t = { u with slot := u.slot + 1 } ∧ s.fetchable = true ∧
        (u = s.fetched s.fetchWord ∨
          ∃ i, decodeWord s.fetchWord = .ok i ∧ exec i (s.fetched s.fetchWord) = .next u) := by
  obtain ⟨hfault, hrun, hfree⟩ := hslot
  obtain ⟨-, ⟨hquit, -⟩ | ⟨hpaused, -⟩ | ⟨-, hfull, -⟩ | ⟨-, -, rfl⟩ |
    ⟨-, hfetch, i, u, hdecode, hexec, rfl⟩ | ⟨-, hfetch, e, -, rfl⟩⟩ := step_cases s t h
  · exact (nomatch hrun.symm.trans hquit)
  · exact (nomatch hrun.symm.trans hpaused)
  · exact absurd hfree (Nat.not_lt.2 hfull)
  · exact .inl ⟨_, rfl⟩
  · obtain ⟨hu, hc⟩ | ⟨f, -, hc⟩ := commit_cases s u
    · exact .inr ⟨u, hu, hc, hfetch, .inr ⟨i, hdecode, hexec⟩⟩
    · exact .inl ⟨f, hc⟩
  · exact .inr ⟨s.fetched s.fetchWord, hfault, commit_of_none _ _ hfault, hfetch, .inl rfl⟩

/-- A step that is no instruction slot changes nothing (QUIT), or is the yield point of a PAUSED
tick or the end of a RUNNING one (R166, R169, R170). -/
theorem step_outside_slot {s t : State} (hslot : ¬ s.InSlot) (h : step s = .next t) :
    t = s ∨ t = s.yieldPoint ∨ t = s.endTick := by
  obtain ⟨-, ⟨-, rfl⟩ | ⟨-, rfl⟩ | ⟨-, -, rfl⟩ | ⟨hs, -⟩ | ⟨hs, -⟩ | ⟨hs, -⟩⟩ := step_cases s t h
  · exact .inl rfl
  · exact .inr (.inl rfl)
  · exact .inr (.inr rfl)
  all_goals exact absurd hs hslot

/-! ### The invariant over one instruction -/

/-- FX1E masks its sum, and the other two loads of I are below 4096 by their operands (R121 to
R123). -/
theorem exec_indexBound {i : Instr} {s t : State} (h : exec i s = .next t)
    (hs : s.i.toNat < 4096) : t.i.toNat < 4096 := by
  by_cases hi : t.i = s.i
  · rwa [hi]
  obtain ⟨nnn, rfl⟩ | ⟨x, rfl | rfl⟩ := exec_i_changed h hi <;> cases h
  · exact (wide12_toNat nnn).trans_lt nnn.isLt
  · exact (indexSum_toNat s.i s.v[x]).trans_lt (Nat.mod_lt _ (by decide))
  · exact (glyphAddress_toNat s.v[x]).trans_lt (by omega)

/-- The stack entries held are return addresses, in 2 to 0x1000 (R14, R25). -/
def State.StackInRange (s : State) : Prop :=
  ∀ k : Fin 16, k.val < s.sp.val → 2 ≤ s.stack[k].toNat ∧ s.stack[k].toNat ≤ 0x1000

/-- A call pushes the advanced pc, a return gives an entry up, and no other instruction touches the
stack (R91, R93). -/
theorem exec_stackInRange {i : Instr} {s t : State} (h : exec i s = .next t)
    (hlow : 2 ≤ s.pc.toNat) (hhigh : s.pc.toNat ≤ 0x1000) (hs : s.StackInRange) :
    t.StackInRange := by
  have hsp : t.sp = (ownUnits i s t).sp := congrArg State.sp (exec_eq_ownUnits h)
  have hstack : t.stack = (ownUnits i s t).stack := congrArg State.stack (exec_eq_ownUnits h)
  cases i with
  | ret =>
    obtain ⟨-, hx⟩ | ⟨j, hj, hx⟩ := exec_ret_cases s <;> rw [hx] at h <;> cases h
    · exact hs
    · intro k hk
      exact hs k (by rw [hj]; exact Nat.lt_succ_of_lt hk)
  | call nnn =>
    obtain ⟨-, hx⟩ | ⟨j, hj, hx⟩ := exec_call_cases s nnn <;> rw [hx] at h <;> cases h
    · exact hs
    · intro k hk
      dsimp only at hk ⊢
      by_cases hkj : j = k
      · subst hkj
        simp [hlow, hhigh]
      · have hlt : k.val < j.val :=
          Nat.lt_of_le_of_ne (Nat.lt_succ_iff.1 hk) fun e => hkj (Fin.ext e.symm)
        have hval : j.val ≠ k.val := fun e => hkj (Fin.ext e)
        have := hs k (by rw [hj]; exact hlt)
        simpa [hval] using this
  | _ => unfold State.StackInRange; rw [hsp, hstack]; exact hs

/-- Where an advanced pc in 2 to 0x1000 skips to (R90). -/
theorem skipTarget_le {a : Word} (ha : a.toNat ≤ 0x1000) : (a + 2).toNat ≤ 0x10FE := by
  rw [BitVec.toNat_add, Nat.mod_eq_of_lt (by simp; omega)]
  simp
  omega

/-- The bound 0x10FE of R25 is that of BNNN; every other instruction stays within it by far. -/
theorem exec_pcBound {i : Instr} {s t : State} (h : exec i s = .next t)
    (hlow : 2 ≤ s.pc.toNat) (hhigh : s.pc.toNat ≤ 0x1000) (hs : s.StackInRange) :
    t.pc.toNat ≤ 0x10FE := by
  have hpc : t.pc = (ownUnits i s t).pc := congrArg State.pc (exec_eq_ownUnits h)
  have hstay : s.pc.toNat ≤ 0x10FE := by omega
  have hskip := skipTarget_le hhigh
  have hskipIf (p : Prop) [Decidable p] : (if p then s.pc + 2 else s.pc).toNat ≤ 0x10FE := by
    split_ifs <;> assumption
  have hskipUnless (p : Prop) [Decidable p] : (if p then s.pc else s.pc + 2).toNat ≤ 0x10FE := by
    split_ifs <;> assumption
  have htarget (nnn : BitVec 12) : (wide12 nnn).toNat ≤ 0x10FE := by rw [wide12_toNat]; omega
  cases i with
  | jp nnn => cases h; exact htarget nnn
  | jpV0 nnn =>
    cases h
    exact (wide8_add_wide12_toNat s.v[0] nnn).trans_le (by omega)
  | call nnn =>
    obtain ⟨-, hx⟩ | ⟨_, -, hx⟩ := exec_call_cases s nnn <;> rw [hx] at h <;> cases h
    · exact hstay
    · exact htarget nnn
  | ret =>
    obtain ⟨-, hx⟩ | ⟨j, hj, hx⟩ := exec_ret_cases s <;> rw [hx] at h <;> cases h
    · exact hstay
    · exact (hs j (by rw [hj]; exact Nat.lt_succ_self _)).2.trans (by decide)
  | seImm x nn => rw [exec_seImm] at h; cases h; exact hskipIf _
  | sneImm x nn => rw [exec_sneImm] at h; cases h; exact hskipUnless _
  | seReg x y => rw [exec_seReg] at h; cases h; exact hskipIf _
  | sneReg x y => rw [exec_sneReg] at h; cases h; exact hskipUnless _
  | skp x =>
    obtain hkey | ⟨k, hkey⟩ := keyNumber_cases s.v[x]
    · rw [exec_skp_noKey s x hkey] at h; cases h; exact hstay
    · rw [exec_skp_key s x k hkey] at h; cases h; exact hskipIf _
  | sknp x =>
    obtain hkey | ⟨k, hkey⟩ := keyNumber_cases s.v[x]
    · rw [exec_sknp_noKey s x hkey] at h; cases h; exact hstay
    · rw [exec_sknp_key s x k hkey] at h; cases h; exact hskipUnless _
  | ldVxK x =>
    obtain hkey | ⟨k, hkey⟩ := Option.eq_none_or_eq_some (s.config.pick s.keypad)
    · rw [exec_ldVxK_none s x hkey] at h
      cases h
      dsimp only
      rw [BitVec.toNat_sub_of_le hlow]
      exact (Nat.sub_le _ _).trans hstay
    · rw [exec_ldVxK_some s x k hkey] at h; cases h; exact hstay
  | _ => rw [hpc]; exact hstay

theorem exec_memoryForm {i : Instr} {s t : State} (h : exec i s = .next t)
    (hs : s.mem.wf = true) : t.mem.wf = true := by
  by_cases hm : t.mem = s.mem
  · rwa [hm]
  obtain ⟨x, rfl | rfl⟩ := exec_mem_changed h hm
  · obtain ⟨-, hx⟩ | ⟨hin, hx⟩ := exec_ldB_cases s x <;> rw [hx] at h <;> cases h
    · exact hs
    · exact Memory.writeBytes_wf _ _ _ hs (Nat.succ_le_succ hin)
  · cases h
    exact storeRegs_wf s x hs

/-- An instruction keeps the invariant from the state a fetch leaves: pc is the address of the word
plus 2 (R80, R85). -/
theorem exec_keeps_inv {i : Instr} {s t : State} (h : exec i s = .next t) (hs : s.Inv)
    (hlow : 2 ≤ s.pc.toNat) (hhigh : s.pc.toNat ≤ 0x1000) : t.Inv := by
  have hframe := exec_frame h
  have hir : t.ir = s.ir := (congrArg State.ir hframe :)
  have hslot : t.slot = s.slot := (congrArg State.slot hframe :)
  have hconfig : t.config = s.config := (congrArg State.config hframe :)
  exact {
    indexBound := exec_indexBound h hs.indexBound
    pcBound := exec_pcBound h hlow hhigh hs.stackEntries
    stackEntries := exec_stackInRange h hlow hhigh hs.stackEntries
    irFields := by rw [hir]; exact hs.irFields
    memoryForm := exec_memoryForm h hs.memoryForm
    slotBound := by rw [hslot, hconfig]; exact hs.slotBound }

/-! ### The invariant over one step -/

/-- The pc after a fetch that lies in memory (R81, R85). -/
theorem fetched_pc_toNat {s : State} (op : Word) (h : s.fetchable = true) :
    (s.fetched op).pc.toNat = s.pc.toNat + 2 := by
  have hpc := (fetchable_iff s).1 h
  rw [State.fetched_pc, BitVec.toNat_add_of_lt (by simp; omega)]
  rfl

theorem fetched_inv {s : State} (op : Word) (hs : s.Inv) (h : s.fetchable = true) :
    (s.fetched op).Inv := by
  have hpc := (fetchable_iff s).1 h
  exact {
    indexBound := hs.indexBound
    pcBound := by rw [fetched_pc_toNat op h]; omega
    stackEntries := hs.stackEntries
    irFields := rfl
    memoryForm := hs.memoryForm
    slotBound := hs.slotBound }

theorem yieldPoint_inv {s : State} (hs : s.Inv) : s.yieldPoint.Inv := by
  rw [yieldPoint_frame]
  exact { hs with slotBound := Nat.zero_le _ }

theorem endTick_inv {s : State} (hs : s.Inv) : s.endTick.Inv := by
  rw [endTick_frame]
  exact { hs with slotBound := Nat.zero_le _ }

/-- Settles O23: a tick end and a fault keep what the invariant speaks of; in a slot the instruction
keeps it from the state the fetch leaves, and one slot more is within the tick. -/
theorem stepKeepsTheInvariant : Obligations.StepKeepsTheInvariant := by
  intro s t hs h
  by_cases hslot : s.InSlot
  · obtain ⟨f, rfl⟩ | ⟨u, -, rfl, hfetch, hu⟩ := step_inSlot_cases hslot h
    · exact { hs with }
    · have hf := fetched_inv s.fetchWord hs hfetch
      have hpc := fetched_pc_toNat s.fetchWord hfetch
      have hle := (fetchable_iff s).1 hfetch
      obtain ⟨-, -, hfree⟩ := hslot
      have hinv : u.Inv ∧ u.slot = s.slot ∧ u.config = s.config := by
        obtain rfl | ⟨i, -, hexec⟩ := hu
        · exact ⟨hf, rfl, rfl⟩
        · exact ⟨exec_keeps_inv hexec hf (by omega) (by omega),
            (congrArg State.slot (exec_frame hexec) :),
            (congrArg State.config (exec_frame hexec) :)⟩
      obtain ⟨hu, hslot, hconfig⟩ := hinv
      exact { hu with slotBound := by dsimp only; rw [hslot, hconfig]; exact hfree }
  · obtain rfl | rfl | rfl := step_outside_slot hslot h
    · exact hs
    · exact yieldPoint_inv hs
    · exact endTick_inv hs

/-! ### The reset state -/

/-- The state after reset(ROM) has the invariant, whatever the FONT and the rate (R24, R25). -/
theorem afterReset_inv {rom : List Byte} (hrom : rom.length ≤ 3584) (s : State) :
    (s.afterReset rom).Inv where
  indexBound := (by decide : (0 : Word).toNat < 4096)
  pcBound := (by decide : (0x200 : Word).toNat ≤ 0x10FE)
  stackEntries := fun _ hk => absurd hk (Nat.not_lt_zero _)
  irFields := (by decide : (⟨0, 0, 0, 0, 0, 0⟩ : Fields) = Fields.ofWord 0)
  memoryForm := Memory.image_wf _ _ (decide_eq_true hrom)
  slotBound := Nat.zero_le _

/-- Settles O21: the state after reset has the invariant and a slot when a tick has one; a longer
ROM fails the check of the load. -/
theorem resetIsRefusedExactlyForALongRom : Obligations.ResetIsRefusedExactlyForALongRom := by
  intro s rom
  refine ⟨fun hrom => ⟨s.afterReset rom, load_of_fits hrom s, afterReset_inv hrom s, ?_⟩,
    fun hlong => if_neg fun hfits => Nat.not_le.2 hlong (of_decide_eq_true hfits)⟩
  exact ⟨fun ⟨_, _, hfree⟩ => hfree, fun hipt => ⟨rfl, rfl, hipt⟩⟩

/-- Writing the default font over the reset image lists no address. -/
theorem reset_image : Memory.image Config.default.font [] = [] := by decide

/-- The reset constant is what reset answers for the empty ROM and the default parameters (R24). -/
theorem afterReset_reset : State.reset.afterReset [] = State.reset := by
  rw [State.afterReset, show State.reset.config.font = Config.default.font from rfl, reset_image]
  rfl

/-- Settles O22: the load of a ROM that fits, and the constant's own values. -/
theorem resetConstantIsTheResetWithTheEmptyRom :
    Obligations.ResetConstantIsTheResetWithTheEmptyRom :=
  ⟨(load_of_fits (Nat.zero_le _) _).trans (congrArg Host.Outcome.next afterReset_reset),
    rfl, rfl, rfl, rfl⟩

/-- Settles O24: the reset constant is a state after reset. -/
theorem resetHasTheInvariant : Obligations.ResetHasTheInvariant := by
  have h := afterReset_inv (rom := []) (Nat.zero_le _) State.reset
  rwa [afterReset_reset] at h

end Sys2Proof.Machine

/-! PROOFS. Fetch, decode and the six faults (40_fetch_decode_step R80, R81; 60_exceptions R150 to
R157). -/

namespace Sys2Proof.Machine
open Claims

/-! ### The step of a decoded word -/

/-- Two bytes decode to an instruction exactly when their word does (R60). -/
theorem decodeBytes_pair {hi lo : Byte} {i : Instr} (h : decodeBytes [hi, lo] = .ok (i, [])) :
    decodeWord (joinBytes hi lo) = .ok i := by
  simp only [decodeBytes] at h
  split at h <;> cases h
  assumption

/-- Settles O6: the step runs the instruction on the fetched state, and commits what it left. -/
theorem stepRunsTheDecodedInstruction : Obligations.StepRunsTheDecodedInstruction := by
  intro s t i hfault hrun hfree hpc hbytes hexec
  have hdecode : decodeWord s.fetchWord = .ok i := decodeBytes_pair hbytes
  rw [encode_of_decodeWord hdecode] at hexec
  rw [step_inSlot s ⟨hfault, hrun, hfree⟩, instrStep_known s i ((fetchable_iff s).2 hpc) hdecode,
    State.fetched, hexec, commitResult_next]
  obtain ⟨ht, hc⟩ | ⟨f, ht, hc⟩ := commit_cases s t <;> rw [hc, ht] <;> rfl

/-! ### The fault of an instruction and of a step -/

/-- The fault that an instruction raises in a state, if any (R150). -/
def faultOf (i : Instr) (s : State) : Option Fault :=
  match i with
  | .ret => if s.sp = 0 then some .stackUnderflow else none
  | .call _ => if s.sp = 16 then some .stackOverflow else none
  | .drw _ y n =>
    if spriteOutOfRange s (s.spriteRows y n) = true then some .spriteReadOutOfRange else none
  | .ldB _ => if 0xFFF < s.ea 2 then some .bcdWriteOutOfRange else none
  | .skp x | .sknp x => if 15 < s.v[x].toNat then some .keyIndexOutOfRange else none
  | _ => none

/-- From a state without a fault an instruction leaves FAULT as `faultOf` says (R150). -/
theorem exec_fault {i : Instr} {s t : State} (h : exec i s = .next t) (hs : s.fault = none) :
    t.fault = faultOf i s := by
  have hfault : t.fault = (ownUnits i s t).fault := congrArg State.fault (exec_eq_ownUnits h)
  cases i with
  | ret =>
    obtain ⟨hsp, hx⟩ | ⟨k, hsp, hx⟩ := exec_ret_cases s <;> rw [hx] at h <;> cases h
    · exact (if_pos hsp).symm
    · exact hs.trans (if_neg (by rw [hsp]; exact Fin.succ_ne_zero k)).symm
  | call nnn =>
    obtain ⟨hsp, hx⟩ | ⟨k, hsp, hx⟩ := exec_call_cases s nnn <;> rw [hx] at h <;> cases h
    · exact (if_pos hsp).symm
    · exact hs.trans (if_neg (by rw [hsp]; exact (Fin.castSucc_lt_last k).ne)).symm
  | drw x y n =>
    obtain ⟨hout, hx⟩ | ⟨hin, hx⟩ := exec_drw_cases s x y n <;> rw [hx] at h <;> cases h
    · exact (if_pos hout).symm
    · exact hs.trans (if_neg hin).symm
  | ldB x =>
    obtain ⟨hout, hx⟩ | ⟨hin, hx⟩ := exec_ldB_cases s x <;> rw [hx] at h <;> cases h
    · exact (if_pos hout).symm
    · exact hs.trans (if_neg (Nat.not_lt.2 hin)).symm
  | skp x =>
    obtain hkey | ⟨k, hkey⟩ := keyNumber_cases s.v[x]
    · rw [exec_skp_noKey s x hkey] at h; cases h; exact (if_pos hkey).symm
    · rw [exec_skp_key s x k hkey] at h; cases h; exact hs.trans (if_neg (by omega)).symm
  | sknp x =>
    obtain hkey | ⟨k, hkey⟩ := keyNumber_cases s.v[x]
    · rw [exec_sknp_noKey s x hkey] at h; cases h; exact (if_pos hkey).symm
    · rw [exec_sknp_key s x k hkey] at h; cases h; exact hs.trans (if_neg (by omega)).symm
  | _ => exact hfault.trans hs

/-- No condition of a fault reads pc or IR (R153 to R157). -/
theorem faultOf_fetched (i : Instr) (s : State) (op : Word) :
    faultOf i (s.fetched op) = faultOf i s := by
  cases i <;> rfl

/-- The sprite fault, by the row that lies beyond memory (R155). -/
theorem spriteOutOfRange_iff_exists_row (s : State) (y : Reg) (n : BitVec 4) :
    spriteOutOfRange s (s.spriteRows y n) = true ↔
      ∃ r : Nat, r < n.toNat ∧ r < 32 - s.v[y].toNat % 32 ∧ 0xFFF < s.i.toNat + r := by
  have hrows : s.spriteRows y n = min n.toNat (32 - s.v[y].toNat % 32) := rfl
  rw [spriteOutOfRange_iff, hrows]
  constructor
  · rintro ⟨hpos, hout⟩
    exact ⟨min n.toNat (32 - s.v[y].toNat % 32) - 1, by omega, by omega, by omega⟩
  · rintro ⟨r, hn, hy, hout⟩
    omega

/-- The fault of a step in an instruction slot: that of the fetch, or else that of the decoded
instruction, if the word decodes to one (R80, R150, R152). -/
theorem step_inSlot_fault {s : State} (hslot : s.InSlot) : ∃ t, step s = .next t ∧
    ((0xFFE < s.pc.toNat ∧ t.fault = some .fetchOutOfRange) ∨
      (s.pc.toNat ≤ 0xFFE ∧ ∃ i, decodeWord s.fetchWord = .ok i ∧ t.fault = faultOf i s) ∨
      (s.pc.toNat ≤ 0xFFE ∧ (∃ e, decodeWord s.fetchWord = .error e) ∧ t.fault = none)) := by
  rw [step_inSlot s hslot]
  cases hfetch : s.fetchable with
  | false =>
    exact ⟨_, instrStep_beyond s hfetch, .inl ⟨(fetchable_eq_false s).1 hfetch, rfl⟩⟩
  | true =>
    have hpc := (fetchable_iff s).1 hfetch
    cases hdecode : decodeWord s.fetchWord with
    | error e =>
      exact ⟨_, instrStep_unknown s e hfetch hdecode,
        .inr (.inr ⟨hpc, ⟨e, rfl⟩, (commit_fault _ _).trans hslot.1⟩)⟩
    | ok i =>
      obtain ⟨u, hexec, -⟩ := exec_writes i (s.fetched s.fetchWord)
      have hu : u.fault = faultOf i s :=
        (exec_fault hexec hslot.1).trans (faultOf_fetched i s s.fetchWord)
      rw [instrStep_known s i hfetch hdecode, hexec]
      exact ⟨_, rfl, .inr (.inl ⟨hpc, i, rfl, (commit_fault _ _).trans hu⟩)⟩

/-- FetchOutOfRange is the fault of a fetch and of no instruction (R152). -/
theorem faultOf_ne_fetchOutOfRange (i : Instr) (s : State) :
    faultOf i s ≠ some .fetchOutOfRange := by
  cases i with
  | ret | call _ | drw _ _ _ | ldB _ | skp _ | sknp _ => unfold faultOf; split_ifs <;> simp
  | _ => exact (Option.some_ne_none _).symm

/-- Settles O12: FetchOutOfRange by the fetch; each other fault by the one instruction, of the word
decoded, that raises it. -/
theorem stepRaisesExactlyTheSixFaults : Obligations.StepRaisesExactlyTheSixFaults := by
  refine ⟨⟨rfl, rfl, rfl, rfl, rfl, rfl⟩, fun s hslot => ?_⟩
  obtain ⟨t, hstep, hcases⟩ := step_inSlot_fault hslot
  have hnone : t.fault = none → t.faultCode = 0 := fun h => by rw [State.faultCode, h]
  have hsome : ∀ f, t.fault = some f → t.faultCode = f.code := fun f h => by rw [State.faultCode, h]
  refine ⟨t, hstep, hnone, hsome, ?_⟩
  obtain ⟨hpc, ht⟩ | ⟨hpc, i, hdecode, ht⟩ | ⟨hpc, ⟨e, he⟩, ht⟩ := hcases
  · have hpc' : ¬ s.pc.toNat ≤ 0xFFE := by omega
    simp [ht, hpc, hpc']
  · have hpc' : ¬ 0xFFE < s.pc.toNat := by omega
    simp only [ht, hdecode, hpc, hpc', true_and, iff_false]
    refine ⟨faultOf_ne_fetchOutOfRange i s, ?_⟩
    simp only [← spriteOutOfRange_iff_exists_row, ← show s.ea 2 = s.i.toNat + 2 from rfl]
    cases i <;> simp [faultOf]
  · simp [ht, he, hpc]

/-- Settles O7: a fetch beyond memory is the whole step; in memory the word joins the two bytes, no
instruction raises FetchOutOfRange, and IR is as the fetch left it. -/
theorem fetchReadsTwoBytesOrFaults : Obligations.FetchReadsTwoBytesOrFaults := by
  refine ⟨fun s hslot hpc => ?beyond,
    fun s hslot hpc => ⟨append_toNat _ _, fun t h => ⟨?fault, ?ir⟩⟩⟩
  case beyond =>
    rw [step_inSlot s hslot, instrStep_beyond s ((fetchable_eq_false s).2 hpc)]
  case fault =>
    obtain ⟨t', ht', hcases⟩ := step_inSlot_fault hslot
    rw [h] at ht'
    cases ht'
    obtain ⟨hbeyond, -⟩ | ⟨-, i, -, ht⟩ | ⟨-, -, ht⟩ := hcases
    · omega
    · exact ht ▸ faultOf_ne_fetchOutOfRange i s
    · exact ht ▸ nofun
  case ir =>
    intro hnone
    obtain ⟨hs, -⟩ | ⟨f, rfl⟩ | ⟨-, -, hir⟩ := step_ir_cases h
    · exact absurd hslot hs
    · cases hnone
    · exact hir

/-! ### A faulting step and a halted core -/

/-- A step that ends with FAULT set wrote nothing else (R151): the ends of a tick raise nothing. -/
theorem step_fault_precise {s t : State} (h : step s = .next t) (ht : t.fault ≠ none) :
    t = { s with fault := t.fault } := by
  have hs : s.fault = none := (step_cases s t h).1
  by_cases hslot : s.InSlot
  · obtain ⟨f, rfl⟩ | ⟨u, hu, rfl, -⟩ := step_inSlot_cases hslot h
    · rfl
    · exact absurd hu ht
  · obtain rfl | rfl | rfl := step_outside_slot hslot h
    · rfl
    · exact absurd ((yieldPoint_fault s).trans hs) ht
    · exact absurd ((endTick_fault s).trans hs) ht

/-- After a fault the host's events are not heeded (R171). -/
theorem heedsHost_of_fault {s : State} {f : Fault} (h : s.fault = some f) :
    s.heedsHost = false := by
  simp [State.heedsHost, h]

/-- After QUIT the host's events are not heeded (R171). -/
theorem heedsHost_of_quit {s : State} (h : s.runState = .quit) : s.heedsHost = false := by
  simp [State.heedsHost, h]

/-- Settles O11: each clause by the lemma on a faulting step, a halted core, an unheeded event, the
host's view or reset. -/
theorem faultsArePreciseAndHalt : Obligations.FaultsArePreciseAndHalt :=
  ⟨fun _ _ => step_fault_precise, step_halted,
    fun s _ e h => apply_unheeded s e (heedsHost_of_fault h),
    fun s f h => by rw [State.view, State.faultCode, h],
    fun s rom hrom => ⟨s.afterReset rom, load_of_fits hrom s, rfl⟩⟩

end Sys2Proof.Machine

/-! PROOFS. The scheduler, the run state and the host's events (60_exceptions R164 to R174). -/

namespace Sys2Proof.Machine

/-! ### The ends of a tick -/

/-- An event neither reads nor writes the inputs and the slot count (R172 to R174). -/
theorem apply_withPosition (s : State) (e : HostEvent) (es : List (List HostEvent)) (k : Nat) :
    HostEvent.apply { s with inputs := es, slot := k } e =
      { HostEvent.apply s e with inputs := es, slot := k } := by
  unfold HostEvent.apply State.heedsHost
  dsimp only
  split_ifs
  · cases e <;> rfl
  · rfl

theorem applyAll_withPosition (events : List HostEvent) (s : State) (es : List (List HostEvent))
    (k : Nat) : events.foldl HostEvent.apply { s with inputs := es, slot := k } =
      { events.foldl HostEvent.apply s with inputs := es, slot := k } := by
  induction events generalizing s with
  | nil => rfl
  | cons e events ih => rw [List.foldl_cons, apply_withPosition, ih, List.foldl_cons]

/-- With no host event left the yield point restarts the slot count only (R171). -/
theorem yieldPoint_nil {s : State} (h : s.inputs = []) : s.yieldPoint = { s with slot := 0 } := by
  have hnext : s.nextEvents = [] := by rw [State.nextEvents, h, List.headD_nil]
  have htail : s.inputs.tail = s.inputs := by rw [h, List.tail_nil]
  rw [State.yieldPoint, hnext, htail, List.foldl_nil]

/-- With host events due the yield point takes them from the inputs and applies them in order
(R166, R171). -/
theorem yieldPoint_cons {s : State} {es : List HostEvent} {rest : List (List HostEvent)}
    (h : s.inputs = es :: rest) :
    s.yieldPoint = { es.foldl HostEvent.apply s with inputs := rest, slot := 0 } := by
  rw [State.yieldPoint, State.nextEvents, h]
  exact applyAll_withPosition es s rest 0

/-- Settles O14: the end of the tick is the yield point of the state with its timers decremented. -/
theorem tickEndsWithTimersThenHostEvents : Obligations.TickEndsWithTimersThenHostEvents := by
  intro s hfault hrun hfull
  rw [step_tickEnd s hfault hrun hfull, State.endTick]
  refine ⟨fun hinputs => ?_, fun es rest hinputs => ?_⟩
  · rw [yieldPoint_nil (s := s.decrementTimers) hinputs]
    rfl
  · rw [yieldPoint_cons (s := s.decrementTimers) hinputs, ← applyAll_withPosition]
    rfl

/-- Settles O15: the frame of the yield point, and its two cases. -/
theorem pausedTickChangesOnlyKeypadAndRunState :
    Obligations.PausedTickChangesOnlyKeypadAndRunState := by
  intro s hfault hpaused
  refine ⟨s.yieldPoint, step_paused s hfault hpaused, yieldPoint_frame s, fun hinputs => ?_,
    fun es rest hinputs => ?_⟩
  · rw [yieldPoint_nil hinputs]
    exact ⟨rfl, hpaused⟩
  · rw [yieldPoint_cons hinputs]
    exact ⟨rfl, rfl⟩

/-! ### Events one by one -/

section
variable {s : State}

theorem heedsHost_of_running (hfault : s.fault = none) (hrun : s.runState ≠ .quit) :
    s.heedsHost = true := by
  simp [State.heedsHost, hfault, hrun]

variable (h : s.heedsHost = true)
include h

theorem apply_togglePause :
    HostEvent.apply s .togglePause = { s with runState := s.runState.toggle } := if_pos h

theorem apply_requestQuit :
    HostEvent.apply s .requestQuit = { s with runState := .quit } := if_pos h

theorem apply_keyDown (k : Reg) :
    HostEvent.apply s (.keyDown k) = { s with keypad := s.keypad.set k true } := if_pos h

theorem apply_keyUp (k : Reg) :
    HostEvent.apply s (.keyUp k) = { s with keypad := s.keypad.set k false } := if_pos h

end

/-- What a step in an instruction slot leaves of the host's side of the state, and the slot it uses
(R166). -/
theorem step_inSlot_frame {s t : State} (hslot : s.InSlot) (h : step s = .next t) :
    t.runState = s.runState ∧ t.keypad = s.keypad ∧ t.inputs = s.inputs ∧ t.config = s.config ∧
      (t.fault = none → t.slot = s.slot + 1) := by
  obtain ⟨f, rfl⟩ | ⟨u, -, rfl, -, rfl | ⟨i, -, hexec⟩⟩ := step_inSlot_cases hslot h
  · exact ⟨rfl, rfl, rfl, rfl, nofun⟩
  · exact ⟨rfl, rfl, rfl, rfl, fun _ => rfl⟩
  · rw [exec_frame hexec]
    exact ⟨rfl, rfl, rfl, rfl, fun _ => rfl⟩

/-- Settles O16: each event by its rule from each run state; in QUIT it is not heeded. -/
theorem runStateFollowsItsTransitionTable : Obligations.RunStateFollowsItsTransitionTable := by
  refine ⟨fun s hfault hrun => ?running, fun s hfault hpaused => ?paused,
    fun s e hquit => apply_unheeded s e (heedsHost_of_quit hquit),
    fun s t hslot h => (step_inSlot_frame hslot h).1⟩
  case running =>
    have hheeds : s.heedsHost = true := heedsHost_of_running hfault (by rw [hrun]; nofun)
    rw [apply_togglePause hheeds, apply_requestQuit hheeds, hrun]
    exact ⟨rfl, rfl⟩
  case paused =>
    have hheeds : s.heedsHost = true := heedsHost_of_running hfault (by rw [hpaused]; nofun)
    rw [apply_togglePause hheeds, apply_requestQuit hheeds, hpaused]
    exact ⟨rfl, rfl⟩

/-- Settles O17: no step and no event acts in QUIT, and the state after reset is RUNNING. -/
theorem quitIsTerminal : Obligations.QuitIsTerminal :=
  ⟨step_quit, fun s es hquit => applyAll_unheeded es s (heedsHost_of_quit hquit),
    fun s rom _ hrom => ⟨s.afterReset rom, load_of_fits hrom s, rfl⟩⟩

/-- Writing to a latch the level it has changes nothing. -/
theorem keypad_set_self (kp : Keypad) (k : Reg) (b : Bool) (h : kp[k] = b) : kp.set k b = kp := by
  subst h
  exact Vector.set_getElem_self k.isLt

/-- Settles O18: each event writes its latch; the rest is about writing one place of the keypad. -/
theorem keyEventsWriteOneLatch : Obligations.KeyEventsWriteOneLatch := by
  intro s k hfault hrun
  have hs : s.heedsHost = true := heedsHost_of_running hfault hrun
  have hdown : HostEvent.apply s (.keyDown k) = { s with keypad := s.keypad.set k true } :=
    apply_keyDown hs k
  have hs' : ({ s with keypad := s.keypad.set k true } : State).heedsHost = true := hs
  rw [hdown, apply_keyDown hs', apply_keyUp hs', apply_keyUp hs]
  refine ⟨rfl, rfl, ?again, fun hk => ?held, fun hk => ?undone⟩
  case again => simp only [Vector.set_set]
  case held => rw [keypad_set_self s.keypad k true hk]
  case undone => simp only [Vector.set_set, keypad_set_self s.keypad k false hk]

/-! ### A RUNNING tick -/

/-- A run that ends without a fault began without one (R151). -/
theorem fault_none_of_runs {k : Nat} {s u : State} (h : State.Runs k s u) (hu : u.fault = none) :
    s.fault = none := by
  cases k with
  | zero => exact (congrArg State.fault h).trans hu
  | succ k =>
    obtain ⟨t, hstep, -⟩ := h
    exact (step_cases s t hstep).1

/-- `k` slots of a RUNNING tick, run without a fault from a state with `s.slot` slots used
(R166). -/
theorem runs_slots {k : Nat} {s u : State} (hrun : s.runState = .running)
    (hfit : s.slot + k ≤ s.config.ipt) (h : State.Runs k s u) (hu : u.fault = none) :
    u.slot = s.slot + k ∧ u.runState = .running ∧ u.keypad = s.keypad ∧ u.inputs = s.inputs ∧
      u.config = s.config := by
  induction k generalizing s with
  | zero =>
    obtain rfl : s = u := h
    exact ⟨rfl, hrun, rfl, rfl, rfl⟩
  | succ k ih =>
    have hs := fault_none_of_runs h hu
    obtain ⟨t, hstep, hrest⟩ := h
    obtain ⟨htrun, htkeypad, htinputs, htconfig, htslot⟩ :=
      step_inSlot_frame ⟨hs, hrun, by omega⟩ hstep
    have htslot := htslot (fault_none_of_runs hrest hu)
    obtain ⟨hslot, hurun, hkeypad, hinputs, hconfig⟩ :=
      ih (htrun.trans hrun) (by rw [htslot, htconfig]; omega) hrest
    exact ⟨by omega, hurun, hkeypad.trans htkeypad, hinputs.trans htinputs, hconfig.trans htconfig⟩

/-- Settles O19: the slots by induction over the run; then the next step is a slot or the tick's
end. -/
theorem runningTickIsIptStepsThenItsEnd : Obligations.RunningTickIsIptStepsThenItsEnd := by
  intro k s u _ hrun hstart hfit hruns hu
  obtain ⟨hslot, hurun, hkeypad, hinputs, hconfig⟩ := runs_slots hrun (by omega) hruns hu
  have hk : u.slot = k := by omega
  exact ⟨hk, hurun, hkeypad, hinputs, hconfig,
    fun hlt => ⟨hu, hurun, by rw [hconfig, hk]; exact hlt⟩,
    fun heq => step_tickEnd u hu hurun (by rw [hconfig, hk, heq])⟩

end Sys2Proof.Machine

/-! PROOFS. Calls, returns and the register skips (41_control_flow R91, R93, R96, R97, R99). -/

namespace Sys2Proof.Machine
open Claims

/-- Settles O25: the word is the constant the encoder gives; the state by the rule of 00EE. -/
theorem returnPopsTheStack : Obligations.ReturnPopsTheStack :=
  ⟨hasWord_of_encode_toNat rfl, exec_ret_empty, exec_ret_held⟩

/-- Settles O27: the word by format A; the state by the rule of 2NNN. -/
theorem callPushesTheAdvancedPc : Obligations.CallPushesTheAdvancedPc :=
  fun nnn => ⟨hasWord_of_encode_toNat (formatA_toNat 0x2 nnn),
    fun s => exec_call_full s nnn, fun s => exec_call_held s nnn⟩

/-- Settles O28: the call pushed pc into slot k, and the return pops slot k; the slots below it are
those the call found. -/
theorem returnAfterCallRestoresThePc : Obligations.ReturnAfterCallRestoresThePc := by
  intro nnn s u w hsp hcall hdepth hheld
  obtain ⟨hfull, -⟩ | ⟨k, hk, hx⟩ := exec_call_cases s nnn
  · rw [hfull] at hsp
    exact absurd hsp (by decide)
  rw [hx] at hcall
  cases hcall
  refine ⟨_, exec_ret_held w k hdepth, ?pc, hk.symm, fun j hj => ?below⟩
  case pc =>
    have hpushed := hheld k (Nat.lt_succ_self _)
    simpa using hpushed
  case below =>
    have hjk : j.val < k.val := by rw [hk] at hj; exact hj
    have hkept := hheld j (Nat.lt_succ_of_lt hjk)
    simpa [hjk.ne'] using hkept

/-- Settles O30: the words by format R; each skip by its rule. -/
theorem registerSkips : Obligations.RegisterSkips :=
  fun x y => ⟨hasWord_of_formatR 0x5 0x0 rfl, hasWord_of_formatR 0x9 0x0 rfl,
    fun s => ⟨exec_seReg s x y, exec_sneReg s x y⟩⟩

end Sys2Proof.Machine

/-! PROOFS. Arithmetic with a flag, and the random byte (42_alu R107 to R112): the two writes, V[X]
and VF, read back in either order (D11). -/

namespace Sys2Proof.Machine
open Claims

/-! ### A result and a flag in one register file -/

section
variable (v : Vector Byte 16) (x : Reg) (f b : Byte)

theorem reg_set_same : (v.set x b)[x] = b := by rw [reg_set, if_pos rfl]

/-- The flag written last leaves the result alone unless VF is the destination (R107). -/
theorem resultThenFlag_reg {x : Reg} (hx : x ≠ 15) : ((v.set x b).set (15 : Reg) f)[x] = b := by
  rw [reg_set_other _ _ hx, reg_set_same]

/-- The flag written first stands in VF unless VF is the destination (R108 to R111). -/
theorem flagThenResult_flag {x : Reg} (hx : x ≠ 15) :
    ((v.set (15 : Reg) f).set x b)[(15 : Reg)] = f := by
  rw [reg_set_other _ _ hx.symm, reg_set_same]

/-- With VF the destination the result overwrites the flag (R108 to R111). -/
theorem flagThenResult_vf {x : Reg} (hx : x = 15) :
    ((v.set (15 : Reg) f).set x b)[(15 : Reg)] = b := by
  subst hx
  rw [reg_set_same]

theorem flagThenResult_other {x r : Reg} (hx : r ≠ x) (hf : r ≠ 15) :
    ((v.set (15 : Reg) f).set x b)[r] = v[r] := by
  rw [reg_set_other _ _ hx, reg_set_other _ _ hf]

end

/-! ### Addition -/

/-- Settles O34: the word by format R; the sum is a byte's, and the flag is written last. -/
theorem addReportsTheCarry : Obligations.AddReportsTheCarry := by
  intro x y
  refine ⟨hasWord_of_formatR 0x8 0x4 rfl, fun s => ⟨_, rfl, rfl, fun r hx hf => ?other,
    fun hx => ?sum, ?carry⟩⟩
  case other => exact (reg_set_other _ _ hf).trans (reg_set_other _ _ hx)
  case sum =>
    exact (congrArg BitVec.toNat (resultThenFlag_reg s.v _ (s.v[x] + s.v[y]) hx)).trans
      (BitVec.toNat_add _ _)
  case carry => exact (reg_set_same _ 15 _).trans (carryFlag_eq s.v[x] s.v[y])

/-! ### The two subtractions -/

section
variable (v : Vector Byte 16) (f : Byte) {a b : Reg}

/-! The difference of two registers read after the flag was written (D11). -/

theorem flagged_sub_of_ne (ha : a ≠ 15) (hb : b ≠ 15) :
    (v.set (15 : Reg) f)[a] - (v.set (15 : Reg) f)[b] = v[a] - v[b] := by
  rw [reg_set_other _ _ ha, reg_set_other _ _ hb]

theorem flagged_sub_of_left (ha : a = 15) (hb : b ≠ 15) :
    (v.set (15 : Reg) f)[a] - (v.set (15 : Reg) f)[b] = f - v[b] := by
  subst ha
  rw [reg_set_same, reg_set_other _ _ hb]

theorem flagged_sub_of_right (ha : a ≠ 15) (hb : b = 15) :
    (v.set (15 : Reg) f)[a] - (v.set (15 : Reg) f)[b] = v[a] - f := by
  subst hb
  rw [reg_set_same, reg_set_other _ _ ha]

theorem flagged_sub_of_eq (hab : a = b) :
    (v.set (15 : Reg) f)[a] - (v.set (15 : Reg) f)[b] = 0 := by
  rw [hab, sub_self]

end

/-- 8XY5: VF, then the difference of the registers as they then stand (R108). -/
theorem exec_sub (x y : Reg) (s : State) (f : Byte) (hf : noBorrowFlag s.v[x] s.v[y] = f) :
    exec (.sub x y) s = .next { s with
      v := (s.v.set (15 : Reg) f).set x
        ((s.v.set (15 : Reg) f)[x] - (s.v.set (15 : Reg) f)[y]) } := by
  subst hf
  rfl

/-- 8XY7: VF, then the reverse difference of the registers as they then stand (R110). -/
theorem exec_subn (x y : Reg) (s : State) (f : Byte) (hf : noBorrowFlag s.v[y] s.v[x] = f) :
    exec (.subn x y) s = .next { s with
      v := (s.v.set (15 : Reg) f).set x
        ((s.v.set (15 : Reg) f)[y] - (s.v.set (15 : Reg) f)[x]) } := by
  subst hf
  rfl

/-- Settles O35: the word by format R; VF holds the flag unless it is the destination, and V[X] the
difference of what the two registers hold once the flag is written. -/
theorem subtractByItsTable : Obligations.SubtractByItsTable := by
  intro x y
  refine ⟨hasWord_of_formatR 0x8 0x5 rfl, fun s f hf => ?_⟩
  have hflag : noBorrowFlag s.v[x] s.v[y] = f := (noBorrowFlag_eq _ _).trans hf.symm
  have hone (hxy : x = y) : f = 1 := by rw [hf, hxy, if_pos (le_refl _)]
  exact ⟨_, exec_sub x y s f hflag, rfl, fun r hx hvf => flagThenResult_other _ _ _ hx hvf,
    fun hx hy => ⟨flagThenResult_flag _ _ _ hx,
      (reg_set_same _ x _).trans (flagged_sub_of_ne s.v f hx hy)⟩,
    fun hxy hx => ⟨(flagThenResult_flag _ _ _ hx).trans (hone hxy),
      (reg_set_same _ x _).trans (flagged_sub_of_eq s.v f hxy)⟩,
    fun hx hy => (flagThenResult_vf _ _ _ hx).trans (flagged_sub_of_left s.v f hx hy),
    fun hy hx => ⟨flagThenResult_flag _ _ _ hx,
      (reg_set_same _ x _).trans (flagged_sub_of_right s.v f hx hy)⟩,
    fun hx hy => (flagThenResult_vf _ _ _ hx).trans (flagged_sub_of_eq s.v f (hx.trans hy.symm))⟩

/-- Settles O36, as O35 with the operands of the difference exchanged. -/
theorem reverseSubtractByItsTable : Obligations.ReverseSubtractByItsTable := by
  intro x y
  refine ⟨hasWord_of_formatR 0x8 0x7 rfl, fun s f hf => ?_⟩
  have hflag : noBorrowFlag s.v[y] s.v[x] = f := (noBorrowFlag_eq _ _).trans hf.symm
  have hone (hxy : x = y) : f = 1 := by rw [hf, hxy, if_pos (le_refl _)]
  exact ⟨_, exec_subn x y s f hflag, rfl, fun r hx hvf => flagThenResult_other _ _ _ hx hvf,
    fun hx hy => ⟨flagThenResult_flag _ _ _ hx,
      (reg_set_same _ x _).trans (flagged_sub_of_ne s.v f hy hx)⟩,
    fun hxy hx => ⟨(flagThenResult_flag _ _ _ hx).trans (hone hxy),
      (reg_set_same _ x _).trans (flagged_sub_of_eq s.v f hxy.symm)⟩,
    fun hx hy => (flagThenResult_vf _ _ _ hx).trans (flagged_sub_of_right s.v f hy hx),
    fun hy hx => ⟨flagThenResult_flag _ _ _ hx,
      (reg_set_same _ x _).trans (flagged_sub_of_left s.v f hy hx)⟩,
    fun hx hy => (flagThenResult_vf _ _ _ hx).trans (flagged_sub_of_eq s.v f (hy.trans hx.symm))⟩

/-! ### The shifts -/

/-- 8XY6: VF, then V[X] as it then stands, shifted right (R109). -/
theorem exec_shr (x y : Reg) (s : State) :
    exec (.shr x y) s = .next { s with
      v := (s.v.set (15 : Reg) (shiftRightFlag s.v[x])).set x
        ((s.v.set (15 : Reg) (shiftRightFlag s.v[x]))[x] >>> 1) } := rfl

/-- 8XYE: VF, then V[X] as it then stands, shifted left (R111). -/
theorem exec_shl (x y : Reg) (s : State) :
    exec (.shl x y) s = .next { s with
      v := (s.v.set (15 : Reg) (shiftLeftFlag s.v[x])).set x
        ((s.v.set (15 : Reg) (shiftLeftFlag s.v[x]))[x] <<< 1) } := rfl

/-- The flag of a right shift, itself shifted right, is 0 (R109). -/
theorem shiftRightFlag_shiftRight (b : Byte) : shiftRightFlag b >>> 1 = 0 := by
  apply BitVec.eq_of_toNat_eq
  rw [BitVec.toNat_ushiftRight, shiftRightFlag_toNat, Nat.shiftRight_eq_div_pow]
  exact Nat.div_eq_of_lt (Nat.mod_lt _ (by decide))

/-- The flag of a left shift, itself shifted left, is 0 or 2 (R111). -/
theorem shiftLeftFlag_shiftLeft (b : Byte) :
    shiftLeftFlag b <<< 1 = if b.toNat < 128 then 0 else 2 := by
  have hflag := shiftLeftFlag_toNat b
  have hb := b.isLt
  split_ifs with h
  · rw [show shiftLeftFlag b = 0 from BitVec.eq_of_toNat_eq (by rw [hflag]; simp; omega)]
    rfl
  · rw [show shiftLeftFlag b = 1 from BitVec.eq_of_toNat_eq (by rw [hflag]; simp; omega)]
    rfl

/-- Settles O37: the word by format R; with X = 0xF the flag itself is shifted. -/
theorem shiftRightReportsBit0 : Obligations.ShiftRightReportsBit0 := by
  intro x y
  refine ⟨hasWord_of_formatR 0x8 0x6 rfl, fun s => ⟨_, exec_shr x y s, rfl,
    fun r hx hvf => flagThenResult_other _ _ _ hx hvf, fun hx => ⟨?flag, ?shifted⟩, fun hx => ?vf⟩⟩
  case flag =>
    exact (congrArg BitVec.toNat (flagThenResult_flag _ _ _ hx)).trans (shiftRightFlag_toNat _)
  case shifted =>
    rw [reg_set_same, reg_set_other _ _ hx, BitVec.toNat_ushiftRight, Nat.shiftRight_eq_div_pow,
      Nat.pow_one]
  case vf =>
    subst hx
    exact (flagThenResult_vf _ _ _ rfl).trans (by rw [reg_set_same, shiftRightFlag_shiftRight])

/-- Settles O38: the word by format R; with X = 0xF the flag itself is shifted. -/
theorem shiftLeftReportsBit7 : Obligations.ShiftLeftReportsBit7 := by
  intro x y
  refine ⟨hasWord_of_formatR 0x8 0xE rfl, fun s => ⟨_, exec_shl x y s, rfl,
    fun r hx hvf => flagThenResult_other _ _ _ hx hvf, fun hx => ⟨?flag, ?shifted⟩, fun hx => ?vf⟩⟩
  case flag =>
    exact (congrArg BitVec.toNat (flagThenResult_flag _ _ _ hx)).trans (shiftLeftFlag_toNat _)
  case shifted =>
    rw [reg_set_same, reg_set_other _ _ hx, BitVec.toNat_shiftLeft, Nat.shiftLeft_eq, Nat.pow_one]
  case vf =>
    subst hx
    exact (flagThenResult_vf _ _ _ rfl).trans (by rw [reg_set_same, shiftLeftFlag_shiftLeft])

/-! ### The random byte -/

/-- Settles O39: the word by format I; whatever byte is drawn, the mask clears the bits outside
NN. -/
theorem randomIsSomeByteMasked : Obligations.RandomIsSomeByteMasked := by
  intro x nn
  refine ⟨hasWord_of_encode_toNat (formatI_toNat 0xC x nn),
    fun s => ⟨Config.randomByte s.draws, rfl, ?_⟩⟩
  rw [BitVec.and_assoc, BitVec.and_not_self]
  exact BitVec.and_zero

end Sys2Proof.Machine

/-! PROOFS. The keypad: key skips and the key wait (45_keypad_timers R141 to R143). -/

namespace Sys2Proof.Machine
open Claims

/-- Settles O48: the words by format I; each skip by its rule. -/
theorem keySkips : Obligations.KeySkips :=
  fun x => ⟨hasWord_of_formatI 0xE 0x9E rfl, hasWord_of_formatI 0xE 0xA1 rfl,
    fun s h => ⟨exec_skp_noKey s x h, exec_sknp_noKey s x h⟩,
    fun s k h => ⟨exec_skp_key s x k h, exec_sknp_key s x k h⟩⟩

/-- The keys down are listed lowest first (R143). -/
theorem downKeys_sorted (kp : Keypad) : (downKeys kp).Pairwise (· ≤ ·) :=
  List.Pairwise.filter _ (by decide)

/-- The default of KEYWAIT_PICK is the lowest key down (R4, R143). -/
theorem pick_default_le {c : Config} {kp : Keypad} {k l : Reg} (hc : c.keyPick = [])
    (h : c.pick kp = some k) (hl : kp[l] = true) : k ≤ l := by
  have hmem := (mem_downKeys kp l).2 hl
  have hsorted := downKeys_sorted kp
  unfold Config.pick at h
  rw [hc] at h
  split at h
  · cases h
  · rename_i lowest rest heq
    cases h
    rw [heq] at hmem hsorted
    obtain rfl | hrest := List.mem_cons.1 hmem
    · exact le_refl _
    · exact List.rel_of_pairwise_cons hsorted hrest

/-- A key wait without a key down leaves pc where the fetch found it (R143). -/
theorem rewound_fetch (s : State) :
    ({ s.fetched s.fetchWord with pc := (s.fetched s.fetchWord).pc - 2 } : State) =
      { s with ir := Fields.ofWord s.fetchWord } := by
  rw [State.fetched_pc, BitVec.add_sub_cancel]
  rfl

/-- Settles O49: the word by format I; no key down is no key picked, and a key picked is down. -/
theorem keyWaitReportsAKeyThatIsDown : Obligations.KeyWaitReportsAKeyThatIsDown := by
  intro x
  refine ⟨hasWord_of_formatI 0xF 0x0A rfl, fun s hnone => ?wait,
    fun s hslot hpc hdecode hnone => ?step, fun s ⟨l, hl⟩ => ?report⟩
  case wait => exact exec_ldVxK_none s x ((pick_eq_none _ _).2 hnone)
  case step =>
    have hwait := exec_ldVxK_none (s.fetched s.fetchWord) x ((pick_eq_none _ _).2 hnone)
    rw [rewound_fetch] at hwait
    rw [step_inSlot s hslot, instrStep_known s _ ((fetchable_iff s).2 hpc) hdecode, hwait,
      commitResult_next, commit_of_none _ _ (by exact hslot.1)]
  case report =>
    obtain hkey | ⟨k, hkey⟩ := Option.eq_none_or_eq_some (s.config.pick s.keypad)
    · have hup := (pick_eq_none _ _).1 hkey l
      rw [hl] at hup
      cases hup
    · have hdown : s.keypad[k] = true := pick_isDown _ _ k hkey
      exact ⟨k, BitVec.ofNat 8 k.val, hdown, Nat.mod_eq_of_lt (k.isLt.trans (by decide)),
        exec_ldVxK_some s x k hkey, fun j honly => (honly k).1 hdown,
        fun hc l hl => pick_default_le hc hkey hl⟩

end Sys2Proof.Machine

/-! PROOFS. The memory transfers FX33, FX55 and FX65, and the bytes a later fetch reads
(43_index_memory R124 to R126; 20_memory R50). -/

namespace Sys2Proof.Machine
open Claims

/-! ### The decimal digits (R124) -/

/-- The digits are three bytes that fit in memory when the last address does. -/
theorem bcdDigits_fit {s : State} (b : Byte) (h : s.ea 2 ≤ 0xFFF) :
    s.ea 0 + (bcdDigits b).length ≤ topAddress + 1 :=
  Nat.succ_le_succ h

/-- The digit at each of the three addresses. -/
theorem read_bcdDigits {s : State} (b : Byte) (k : Fin 3) (hwf : s.mem.wf = true)
    (h : s.ea 2 ≤ 0xFFF) :
    Memory.read (Memory.writeBytes s.mem (s.ea 0) (bcdDigits b)) (s.ea k.val) =
      (bcdDigits b).getD k.val 0 := by
  have hk : s.ea k.val - s.ea 0 = k.val := Nat.add_sub_cancel_left _ _
  rw [Memory.read_writeBytes _ _ _ _ hwf (bcdDigits_fit b h), hk, if_pos]
  exact ⟨Nat.add_le_add_left (Nat.zero_le _) _, Nat.add_lt_add_left k.isLt _⟩

/-- Every other address reads as before. -/
theorem read_bcdDigits_other {s : State} (b : Byte) {a : Nat} (h0 : a ≠ s.ea 0) (h1 : a ≠ s.ea 1)
    (h2 : a ≠ s.ea 2) :
    Memory.read (Memory.writeBytes s.mem (s.ea 0) (bcdDigits b)) a = Memory.read s.mem a := by
  apply Memory.read_writeBytes_outside
  simp only [State.ea, bcdDigits, List.length_cons, List.length_nil] at *
  omega

/-- The digits as numbers: each is below 10, so that none is cut to a byte. -/
theorem bcdDigits_toNat (b : Byte) : ((bcdDigits b).getD 0 0).toNat = b.toNat / 100 ∧
    ((bcdDigits b).getD 1 0).toNat = b.toNat / 10 % 10 ∧
    ((bcdDigits b).getD 2 0).toNat = b.toNat % 10 := by
  have hb := b.isLt
  exact ⟨Nat.mod_eq_of_lt (by omega), Nat.mod_eq_of_lt (by omega), Nat.mod_eq_of_lt (by omega)⟩

/-- Settles O41: the word by format I; the state by the rule of FX33, its memory by what each
address reads as after the digits are written. -/
theorem decimalDigitsAreStored : Obligations.DecimalDigitsAreStored := by
  intro x
  refine ⟨hasWord_of_formatI 0xF 0x33 rfl, fun s => exec_ldB_beyond s x, fun s hwf hin => ?_⟩
  obtain ⟨hhundreds, htens, hones⟩ := bcdDigits_toNat s.v[x]
  exact ⟨_, exec_ldB_inside s x hin, rfl,
    Memory.writeBytes_wf _ _ _ hwf (bcdDigits_fit _ hin), rfl,
    (congrArg BitVec.toNat (read_bcdDigits s.v[x] 0 hwf hin)).trans hhundreds,
    (congrArg BitVec.toNat (read_bcdDigits s.v[x] 1 hwf hin)).trans htens,
    (congrArg BitVec.toNat (read_bcdDigits s.v[x] 2 hwf hin)).trans hones,
    fun a => read_bcdDigits_other s.v[x]⟩

/-! ### The register groups (R125, R126) -/

/-- FX55 writes memory and nothing else (R125). -/
theorem exec_ldMemVx (x : Reg) (s : State) :
    exec (.ldMemVx x) s = .next { s with mem := storeRegs s x } := rfl

/-- Settles O42: the word by format I; each address by what it reads as after the elements are
stored. -/
theorem registersAreStored : Obligations.RegistersAreStored := by
  intro x
  exact ⟨hasWord_of_formatI 0xF 0x55 rfl, fun s hwf =>
    ⟨_, exec_ldMemVx x s, rfl, storeRegs_wf s x hwf, rfl,
      fun r hr ha => storeRegs_at s x r hwf hr ha, fun a ha => storeRegs_outside s x a ha⟩⟩

/-- Settles O43: the word by format I; each register by what the elements load into it. -/
theorem registersAreLoaded : Obligations.RegistersAreLoaded := by
  intro x
  exact ⟨hasWord_of_formatI 0xF 0x65 rfl, fun s =>
    ⟨_, exec_ldVxMem s x, rfl, fun r hr ha => (loadRegs_reg s x r).trans (if_pos ⟨hr, ha⟩),
      fun r hr => (loadRegs_reg s x r).trans (if_neg hr)⟩⟩

/-! ### A stored byte is read back (R50) -/

/-- A byte that an instruction stores is read from its address afterwards. -/
theorem exec_byteAt_stored {i : Instr} {s t : State} {a : Nat} {b : Byte} (hwf : s.mem.wf = true)
    (h : exec i s = .next t) (hb : Stores i s a b) : t.byteAt a = b := by
  cases i with
  | ldMemVx x =>
    obtain ⟨r, hr, rfl, ha, rfl⟩ := hb
    cases h
    exact storeRegs_at s x r hwf hr ha
  | ldB x =>
    obtain ⟨hin, hdigit⟩ := hb
    obtain ⟨hhundreds, htens, hones⟩ := bcdDigits_toNat s.v[x]
    rw [exec_ldB_inside s x hin] at h
    cases h
    apply BitVec.eq_of_toNat_eq
    obtain ⟨rfl, hb⟩ | ⟨rfl, hb⟩ | ⟨rfl, hb⟩ := hdigit <;> rw [hb]
    · exact (congrArg BitVec.toNat (read_bcdDigits s.v[x] 0 hwf hin)).trans hhundreds
    · exact (congrArg BitVec.toNat (read_bcdDigits s.v[x] 1 hwf hin)).trans htens
    · exact (congrArg BitVec.toNat (read_bcdDigits s.v[x] 2 hwf hin)).trans hones
  | _ => exact hb.elim

/-- An address that an instruction stores no byte to reads as before. -/
theorem exec_byteAt_other {i : Instr} {s t : State} {a : Nat} (h : exec i s = .next t)
    (hnone : ∀ b, ¬ Stores i s a b) : t.byteAt a = s.byteAt a := by
  by_cases hmem : t.mem = s.mem
  · rw [State.byteAt, State.byteAt, hmem]
  obtain ⟨x, rfl | rfl⟩ := exec_mem_changed h hmem
  · obtain ⟨-, hx⟩ | ⟨hin, hx⟩ := exec_ldB_cases s x <;> rw [hx] at h <;> cases h
    · rfl
    · obtain ⟨hhundreds, htens, hones⟩ := bcdDigits_toNat s.v[x]
      exact read_bcdDigits_other s.v[x] (fun ha => hnone _ ⟨hin, .inl ⟨ha, hhundreds⟩⟩)
        (fun ha => hnone _ ⟨hin, .inr (.inl ⟨ha, htens⟩)⟩)
        (fun ha => hnone _ ⟨hin, .inr (.inr ⟨ha, hones⟩)⟩)
  · cases h
    refine storeRegs_outside s x a fun r hr hin ha => hnone s.v[r] ⟨r, hr, ha, ?_, rfl⟩
    rw [ha]
    exact hin

/-- An instruction that stores leaves pc alone. -/
theorem exec_pc_of_stores {i : Instr} {s t : State} {a : Nat} {b : Byte} (h : exec i s = .next t)
    (hb : Stores i s a b) : t.pc = s.pc := by
  have hpc : t.pc = (ownUnits i s t).pc := congrArg State.pc (exec_eq_ownUnits h)
  cases i with
  | ldMemVx _ | ldB _ => exact hpc
  | _ => exact hb.elim

/-- The bytes of the word a fetch reads are those of the memory a state holds (R81). -/
theorem fetchWord_bytes {w t : State} (hmem : w.mem = t.mem) :
    highByte w.fetchWord = t.byteAt w.pc.toNat ∧
      lowByte w.fetchWord = t.byteAt (w.pc.toNat + 1) := by
  have hbyte (a : Nat) : w.byteAt a = t.byteAt a := congrArg (Memory.read · a) hmem
  rw [State.fetchWord, highByte_joinBytes, lowByte_joinBytes]
  exact ⟨hbyte _, hbyte _⟩

/-- Settles O44: each byte of the word is the byte the instruction left at its address. -/
theorem storedWordIsFetchedNext : Obligations.StoredWordIsFetchedNext := by
  intro i s t w hwf h hmem
  obtain ⟨hhigh, hlow⟩ := fetchWord_bytes hmem
  rw [hhigh, hlow]
  exact ⟨fun b hb => exec_byteAt_stored hwf h hb, fun b hb => exec_byteAt_stored hwf h hb,
    fun hnone => exec_byteAt_other h hnone, fun hnone => exec_byteAt_other h hnone,
    fun ⟨_, _, hb⟩ => exec_pc_of_stores h hb⟩

end Sys2Proof.Machine

/-! PROOFS. Drawing: DXYN in terms of the cells that the clipped sprite covers, and a second draw of
the same sprite (44_display R132, R133). -/

namespace Sys2Proof.Machine
open Claims

/-! ### The cells a sprite covers -/

section
variable {s : State} {x y : Reg} {n : BitVec 4} {x0 y0 rows : Nat}

/-- A sprite covers the same cells in a state with the same memory and I. -/
theorem spriteCovers_congr {t : State} (hi : t.i = s.i) (hm : t.mem = s.mem) :
    SpriteCovers t x0 y0 rows = SpriteCovers s x0 y0 rows := by
  funext r c
  rw [SpriteCovers, SpriteCovers, State.byteAt, State.byteAt, hi, hm]

/-- The place of DXYN, as the statements give it: the start wraps, the rows are clipped (R132). -/
structure DrawsAt (s : State) (x y : Reg) (n : BitVec 4) (x0 y0 rows : Nat) : Prop where
  column : x0 = s.v[x].toNat % 64
  row : y0 = s.v[y].toNat % 32
  rows : rows = min n.toNat (32 - y0)

variable (h : DrawsAt s x y n x0 y0 rows)
include h

theorem DrawsAt.column_lt : x0 < 64 := h.column.trans_lt (Nat.mod_lt _ (by decide))

theorem DrawsAt.clipped : y0 + rows ≤ 32 := by
  have hrow : y0 < 32 := h.row.trans_lt (Nat.mod_lt _ (by decide))
  have hrows := h.rows
  omega

theorem DrawsAt.spriteRows_eq : s.spriteRows y n = rows := by
  rw [h.rows, h.row]
  rfl

theorem DrawsAt.drawn_eq :
    s.drawn x y n = drawSprite s.mem (s.ea 0) x0 y0 rows s.display := by
  rw [State.drawn, h.spriteRows_eq, h.column, h.row]
  rfl

/-- The cell of a drawn sprite bit is what `SpriteCovers` says (R133). -/
theorem DrawsAt.covers_iff (r c : Nat) : SpriteCovers s x0 y0 rows r c ↔
    (decide (y0 ≤ r ∧ r < y0 + rows ∧ x0 ≤ c ∧ c < x0 + min 8 (64 - x0)) &&
      spriteBit (Memory.read s.mem (s.ea 0 + (r - y0))) (c - x0)) = true := by
  have hx := h.column_lt
  have hclip : (c < x0 + 8 ∧ c ≤ 63) ↔ c < x0 + min 8 (64 - x0) := by omega
  rw [Bool.and_eq_true, decide_eq_true_iff, ← hclip]
  simp only [SpriteCovers, State.byteAt, State.ea, spriteBit, Nat.add_zero, and_assoc]

theorem DrawsAt.drawn_of_covered {r c : Nat} (hc : SpriteCovers s x0 y0 rows r c) :
    cellAt (s.drawn x y n).1 r c = !cellAt s.display r c := by
  rw [h.drawn_eq, drawSprite_cell _ _ _ _ _ _ h.column_lt h.clipped, (h.covers_iff r c).1 hc,
    Bool.xor_true]

theorem DrawsAt.drawn_of_uncovered {r c : Nat} (hc : ¬ SpriteCovers s x0 y0 rows r c) :
    cellAt (s.drawn x y n).1 r c = cellAt s.display r c := by
  rw [h.drawn_eq, drawSprite_cell _ _ _ _ _ _ h.column_lt h.clipped,
    Bool.eq_false_iff.2 fun hb => hc ((h.covers_iff r c).2 hb), Bool.xor_false]

/-- The collision: a covered cell was on (R133). -/
theorem DrawsAt.drawn_hit : (s.drawn x y n).2 = true ↔
    ∃ r c, SpriteCovers s x0 y0 rows r c ∧ cellAt s.display r c = true := by
  rw [h.drawn_eq, drawSprite_hit _ _ _ _ _ _ h.column_lt h.clipped]
  simp only [h.covers_iff, Bool.and_eq_true, decide_eq_true_iff]
  constructor
  · rintro ⟨r, k, hr, hk, hbit, hcell⟩
    refine ⟨y0 + r, x0 + k, ⟨⟨by omega, by omega, by omega, by omega⟩, ?_⟩, hcell⟩
    rwa [Nat.add_sub_cancel_left, Nat.add_sub_cancel_left]
  · rintro ⟨r, c, ⟨⟨hr, hr', hc, hc'⟩, hbit⟩, hcell⟩
    refine ⟨r - y0, c - x0, by omega, by omega, hbit, ?_⟩
    rwa [Nat.add_sub_cancel' hr, Nat.add_sub_cancel' hc]

/-- VF after the draw: 1 exactly when a drawn 1 met a cell that was on (R132). -/
theorem DrawsAt.flag_eq_one_iff : collisionFlag (s.drawn x y n).2 = 1 ↔
    ∃ r c, SpriteCovers s x0 y0 rows r c ∧ cellAt s.display r c = true :=
  (flagOf_eq_one _).trans h.drawn_hit

/-- DXYN with every drawn row in memory (R132, R155). -/
theorem DrawsAt.exec_inside (hin : ¬ (0 < rows ∧ 0xFFF < s.i.toNat + rows - 1)) :
    exec (.drw x y n) s = .next { s with
      v := s.v.set 15 (collisionFlag (s.drawn x y n).2)
      display := (s.drawn x y n).1 } :=
  exec_drw_inside s x y n (by rwa [h.spriteRows_eq, spriteOutOfRange_iff])

end

/-- A flag that is not 1 is 0 (R11). -/
theorem collisionFlag_eq_zero {hit : Bool} (h : ¬ collisionFlag hit = 1) :
    collisionFlag hit = 0 := by
  cases hit
  · rfl
  · exact absurd rfl h

/-- The word of DXYN in the form of R64. -/
theorem hasWord_drw (x y : Reg) (n : BitVec 4) :
    HasWord (.drw x y n) (0xD000 + x.val * 256 + y.val * 16 + n.toNat) :=
  hasWord_of_encode_toNat (formatR_toNat 0xD x y n)

/-- Settles O46: the fault by its condition; the display and VF by the cells the sprite covers. -/
theorem drawXorsTheClippedSprite : Obligations.DrawXorsTheClippedSprite := by
  intro x y n
  refine ⟨hasWord_drw x y n, fun s x0 y0 rows hx hy hrows => ?_⟩
  have hdraw : DrawsAt s x y n x0 y0 rows := ⟨hx, hy, hrows⟩
  refine ⟨fun hout => ?beyond, fun hin => ⟨_, hdraw.exec_inside hin, ?frame,
    fun r c _ _ => ⟨hdraw.drawn_of_covered, hdraw.drawn_of_uncovered⟩, fun hhit => ?on,
    fun hmiss => ?off⟩⟩
  case beyond =>
    exact exec_drw_beyond s x y n (by rwa [hdraw.spriteRows_eq, spriteOutOfRange_iff])
  case frame => simp
  case on => exact (reg_set_same s.v 15 _).trans (hdraw.flag_eq_one_iff.2 hhit)
  case off =>
    exact (reg_set_same s.v 15 _).trans
      (collisionFlag_eq_zero fun hone => hmiss (hdraw.flag_eq_one_iff.1 hone))

/-! ### Drawing twice -/

/-- A draw that ends without a fault had every drawn row in memory (R155). -/
theorem drawn_of_exec_drw {s t : State} {x y : Reg} {n : BitVec 4}
    (h : exec (.drw x y n) s = .next t) (ht : t.fault = none) :
    ¬ spriteOutOfRange s (s.spriteRows y n) = true ∧
      t = { s with
        v := s.v.set 15 (collisionFlag (s.drawn x y n).2)
        display := (s.drawn x y n).1 } := by
  obtain ⟨-, hx⟩ | ⟨hin, hx⟩ := exec_drw_cases s x y n <;> rw [hx] at h <;> cases h
  · cases ht
  · exact ⟨hin, rfl⟩

section
variable {s t : State} {x y : Reg} {n : BitVec 4} {x0 y0 rows : Nat}

/-- Two draws with the same sprite at the same place: the second finds the cells the first left, and
every covered cell is flipped twice (R133). -/
theorem drawn_twice (hs : DrawsAt s x y n x0 y0 rows) (ht : DrawsAt t x y n x0 y0 rows)
    (hcovers : SpriteCovers t x0 y0 rows = SpriteCovers s x0 y0 rows)
    (hdisplay : t.display = (s.drawn x y n).1) : (t.drawn x y n).1 = s.display := by
  apply display_ext
  intro r c _ _
  by_cases hc : SpriteCovers s x0 y0 rows r c
  · rw [ht.drawn_of_covered (hcovers ▸ hc), hdisplay, hs.drawn_of_covered hc, Bool.not_not]
  · rw [ht.drawn_of_uncovered (hcovers ▸ hc), hdisplay, hs.drawn_of_uncovered hc]

/-- The second draw collides where the first turned a cell on, which was off before it (R133). -/
theorem second_flag_eq_one_iff (hs : DrawsAt s x y n x0 y0 rows) (ht : DrawsAt t x y n x0 y0 rows)
    (hcovers : SpriteCovers t x0 y0 rows = SpriteCovers s x0 y0 rows)
    (hdisplay : t.display = (s.drawn x y n).1) : collisionFlag (t.drawn x y n).2 = 1 ↔
      ∃ r c, SpriteCovers s x0 y0 rows r c ∧ cellAt s.display r c = false := by
  rw [ht.flag_eq_one_iff, hcovers, hdisplay]
  refine exists_congr fun r => exists_congr fun c => and_congr_right fun hc => ?_
  rw [hs.drawn_of_covered hc, Bool.not_eq_true']

end

/-- Settles O47: the first draw leaves V[X], V[Y], I and memory, so that the second is at the same
place and covers the same cells. -/
theorem drawingTwiceRestoresTheDisplay : Obligations.DrawingTwiceRestoresTheDisplay := by
  intro x y n s t x0 y0 rows hx hy _ hcolumn hrow hrows hexec hfault
  obtain ⟨hin, rfl⟩ := drawn_of_exec_drw hexec hfault
  have hs : DrawsAt s x y n x0 y0 rows := ⟨hcolumn, hrow, hrows⟩
  have ht : DrawsAt { s with
      v := s.v.set 15 (collisionFlag (s.drawn x y n).2), display := (s.drawn x y n).1 }
      x y n x0 y0 rows :=
    ⟨hcolumn.trans (congrArg (BitVec.toNat · % 64) (reg_set_other s.v _ hx)).symm,
      hrow.trans (congrArg (BitVec.toNat · % 32) (reg_set_other s.v _ hy)).symm, hrows⟩
  rw [hs.spriteRows_eq, spriteOutOfRange_iff] at hin
  have hflag := second_flag_eq_one_iff hs ht (spriteCovers_congr rfl rfl) rfl
  refine ⟨_, ht.exec_inside hin, drawn_twice hs ht (spriteCovers_congr rfl rfl) rfl, ?collision,
    fun hoff => ?blank⟩
  case collision => rw [← hflag]; exact Eq.congr_left (reg_set_same _ 15 _)
  case blank =>
    refine (Eq.congr_left (reg_set_same _ 15 _)).trans (hflag.trans ?_)
    exact exists_congr fun r => exists_congr fun c => and_iff_left_of_imp (hoff r c)

end Sys2Proof.Machine
